-- ==== Sys2Proof/Word.lean ====
section
/-!
DEFINITION. The widths of 00_scope.md R10, R12, R15: a byte is 8 bits, an operand slot and `result` are 16 bits.
A line level is a `Bool`: `true` is high (1), `false` is low (0) (R16).
-/

namespace Sys2Proof

/-- One byte on the wire, a wire address or a register of the Device (R10, R46). -/
abbrev Byte := BitVec 8

/-- An operand slot of the command port and the result port (R12, R80). -/
abbrev Word := BitVec 16

end Sys2Proof
end

