-- ==== Sys2Proof/Syntax.lean ====
section
/-!
DEFINITION. The instructions: one constructor for every row of spec/opcode_table.json (15 commands, 2 reserved rows,
22 wire address rows), with the operands of 30_encoding.md R82 at the widths of R81, and the raw words a decoder reads.
-/

namespace Sys2Proof

/-- The six calendar fields (30_encoding.md R83). Weekday is not a field (90_conflicts.md C5). -/
inductive Field where
  | second | minute | hour | day | month | year
  deriving DecidableEq, Repr

/-- The registers of the Device's map (20_memory.md R47). -/
inductive Reg where
  | second | minute | hour | day | month | weekday | year | writeProtect | control | ramBase
  deriving DecidableEq, Repr

/-- One instruction. Field operands stay 3-bit codes: codes 6 and 7 can be presented and fault (30_encoding.md R85). -/
inductive Instr where
  /-- WBYTE, 40_bitlink.md R107. -/
  | wbyte (value : Byte)
  /-- RBYTE, 40_bitlink.md R110. -/
  | rbyte
  /-- RREG, 41_transport.md R121. -/
  | rreg (addr : Byte)
  /-- WREG, 41_transport.md R126. -/
  | wreg (addr value : Byte)
  /-- GWRITE, 42_writeguard.md R136. -/
  | gwrite (addr value : Byte)
  /-- ENC, 43_fieldcodec.md R149. -/
  | enc (n : Word)
  /-- DEC, 43_fieldcodec.md R150. -/
  | dec (byte : Byte)
  /-- CLAMP, 43_fieldcodec.md R158. -/
  | clamp (field : BitVec 3) (d : Word)
  /-- WRAP, 43_fieldcodec.md R159. -/
  | wrap (field : BitVec 3) (x : Word)
  /-- GETF, 44_facade.md R178. -/
  | getf (field : BitVec 3)
  /-- SETYMD, 44_facade.md R180. -/
  | setymd (year month day : Word)
  /-- SETHMS, 44_facade.md R181. -/
  | sethms (hour minute second : Word)
  /-- SETDT, 44_facade.md R182. -/
  | setdt (year month day weekday hour minute second : Word)
  /-- START, 44_facade.md R184. -/
  | start
  /-- PAUSE, 44_facade.md R185. -/
  | pause
  /-- RESERVED_00, the reserved opcode 0x00 (30_encoding.md R84). -/
  | reserved00
  /-- RESERVED_10_1F, the reserved opcode 0x10 + `low` (30_encoding.md R84). -/
  | reserved10to1F (low : BitVec 4)
  /-- FRAME_WR_SECOND: the write frame at 0x80 (30_encoding.md R79). -/
  | frameWrSecond (data : Byte)
  /-- FRAME_RD_SECOND: the read frame at 0x81 (30_encoding.md R78). -/
  | frameRdSecond
  /-- FRAME_WR_MINUTE: the write frame at 0x82 (30_encoding.md R79). -/
  | frameWrMinute (data : Byte)
  /-- FRAME_RD_MINUTE: the read frame at 0x83 (30_encoding.md R78). -/
  | frameRdMinute
  /-- FRAME_WR_HOUR: the write frame at 0x84 (30_encoding.md R79). -/
  | frameWrHour (data : Byte)
  /-- FRAME_RD_HOUR: the read frame at 0x85 (30_encoding.md R78). -/
  | frameRdHour
  /-- FRAME_WR_DAY: the write frame at 0x86 (30_encoding.md R79). -/
  | frameWrDay (data : Byte)
  /-- FRAME_RD_DAY: the read frame at 0x87 (30_encoding.md R78). -/
  | frameRdDay
  /-- FRAME_WR_MONTH: the write frame at 0x88 (30_encoding.md R79). -/
  | frameWrMonth (data : Byte)
  /-- FRAME_RD_MONTH: the read frame at 0x89 (30_encoding.md R78). -/
  | frameRdMonth
  /-- FRAME_WR_WEEKDAY: the write frame at 0x8A (30_encoding.md R79). -/
  | frameWrWeekday (data : Byte)
  /-- FRAME_RD_WEEKDAY: the read frame at 0x8B (30_encoding.md R78). -/
  | frameRdWeekday
  /-- FRAME_WR_YEAR: the write frame at 0x8C (30_encoding.md R79). -/
  | frameWrYear (data : Byte)
  /-- FRAME_RD_YEAR: the read frame at 0x8D (30_encoding.md R78). -/
  | frameRdYear
  /-- FRAME_WR_WP: the write frame at 0x8E (30_encoding.md R79). -/
  | frameWrWp (data : Byte)
  /-- FRAME_RD_WP: the read frame at 0x8F (30_encoding.md R78). -/
  | frameRdWp
  /-- FRAME_WR_CONTROL: the write frame at 0x90 (30_encoding.md R79). -/
  | frameWrControl (data : Byte)
  /-- FRAME_RD_CONTROL: the read frame at 0x91 (30_encoding.md R78). -/
  | frameRdControl
  /-- FRAME_WR_RAM_BASE: the write frame at 0xC0 (30_encoding.md R79). -/
  | frameWrRamBase (data : Byte)
  /-- FRAME_RD_RAM_BASE: the read frame at 0xC1 (30_encoding.md R78). -/
  | frameRdRamBase
  /-- FRAME_WRITE_ANY: the write frame at an even address that the map does not name (30_encoding.md R79, R92). -/
  | frameWriteAny (addr data : Byte)
  /-- FRAME_READ_ANY: the read frame at an odd address that the map does not name (30_encoding.md R78, R92). -/
  | frameReadAny (addr : Byte)
  deriving DecidableEq, Repr

/-- The bundle of the command port: `cmd_op[4:0]` and the seven operand slots (30_encoding.md R80). -/
structure CmdWord where
  op : BitVec 5
  a0 : Word := 0
  a1 : Word := 0
  a2 : Word := 0
  a3 : Word := 0
  a4 : Word := 0
  a5 : Word := 0
  a6 : Word := 0
  deriving DecidableEq, Repr

/-- A raw word of one of the two formats of opcode_table.json: CMD, the command bundle, and WIREADDR, the address byte of
a frame with the data byte of a write frame (30_encoding.md R77 to R80; a read frame's data byte is the Device's). -/
inductive Request where
  | command (c : CmdWord)
  | frame (addr data : Byte)
  deriving DecidableEq, Repr

end Sys2Proof
end

