-- ==== Sys2Proof/Decode.lean ====
section
/-!
DEFINITION. The decoder and the encoder of the two formats of spec/opcode_table.json (30_encoding.md R77 to R92), the
register map (20_memory.md R47), and the layout of a raw word in bytes that the opcode table's numbering is read in.
-/

namespace Sys2Proof

/-! ### The register map -/

/-- The write address of a register (20_memory.md R47, "wire constants, must be reproduced bit-exact"). -/
def Reg.waddr : Reg → Byte
  | .second => 0x80
  | .minute => 0x82
  | .hour => 0x84
  | .day => 0x86
  | .month => 0x88
  | .weekday => 0x8A
  | .year => 0x8C
  | .writeProtect => 0x8E
  | .control => 0x90
  | .ramBase => 0xC0

/-- "Read address = write address + 1 in every case" (20_memory.md R47). -/
def Reg.raddr (r : Reg) : Byte := r.waddr + 1

/-- The registers in map order (20_memory.md R47). -/
def mapOrder : List Reg :=
  [.second, .minute, .hour, .day, .month, .weekday, .year, .writeProtect, .control, .ramBase]

/-- The map names this wire address, as a write or as a read address (30_encoding.md R92). -/
def namedAddress (a : Byte) : Bool := mapOrder.any fun r => a == r.waddr || a == r.raddr

/-! ### Operand slots (30_encoding.md R81) -/

/-- A byte slot uses bits 7:0 and ignores bits 15:8. -/
def byteSlot (a : Word) : Byte := a.setWidth 8

/-- A field code slot uses bits 2:0 and ignores bits 15:3. -/
def fieldSlot (a : Word) : BitVec 3 := a.setWidth 3

/-! ### Decoding -/

/-- Opcode decoding is total: every 5-bit value is a command of 30_encoding.md R82 or reserved (R84, R88). -/
def decodeCommand (c : CmdWord) : Instr :=
  match c.op with
  | 0x00#5 => .reserved00
  | 0x01#5 => .wbyte (byteSlot c.a0)
  | 0x02#5 => .rbyte
  | 0x03#5 => .rreg (byteSlot c.a0)
  | 0x04#5 => .wreg (byteSlot c.a0) (byteSlot c.a1)
  | 0x05#5 => .gwrite (byteSlot c.a0) (byteSlot c.a1)
  | 0x06#5 => .enc c.a0
  | 0x07#5 => .dec (byteSlot c.a0)
  | 0x08#5 => .clamp (fieldSlot c.a0) c.a1
  | 0x09#5 => .wrap (fieldSlot c.a0) c.a1
  | 0x0A#5 => .getf (fieldSlot c.a0)
  | 0x0B#5 => .setymd c.a0 c.a1 c.a2
  | 0x0C#5 => .sethms c.a0 c.a1 c.a2
  | 0x0D#5 => .setdt c.a0 c.a1 c.a2 c.a3 c.a4 c.a5 c.a6
  | 0x0E#5 => .start
  | 0x0F#5 => .pause
  | op => .reserved10to1F (op.setWidth 4)

/-- The wire address table (30_encoding.md R92): the exact byte selects the register, bit 0 the direction; an address
that the map does not name is a frame too, of the row FRAME_WRITE_ANY or FRAME_READ_ANY. -/
def decodeFrame (addr data : Byte) : Instr :=
  match addr with
  | 0x80#8 => .frameWrSecond data
  | 0x81#8 => .frameRdSecond
  | 0x82#8 => .frameWrMinute data
  | 0x83#8 => .frameRdMinute
  | 0x84#8 => .frameWrHour data
  | 0x85#8 => .frameRdHour
  | 0x86#8 => .frameWrDay data
  | 0x87#8 => .frameRdDay
  | 0x88#8 => .frameWrMonth data
  | 0x89#8 => .frameRdMonth
  | 0x8A#8 => .frameWrWeekday data
  | 0x8B#8 => .frameRdWeekday
  | 0x8C#8 => .frameWrYear data
  | 0x8D#8 => .frameRdYear
  | 0x8E#8 => .frameWrWp data
  | 0x8F#8 => .frameRdWp
  | 0x90#8 => .frameWrControl data
  | 0x91#8 => .frameRdControl
  | 0xC0#8 => .frameWrRamBase data
  | 0xC1#8 => .frameRdRamBase
  | a => if a.getLsbD 0 then .frameReadAny a else .frameWriteAny a data

/-- The instruction a raw word spells. Total: reserved words are instructions that fault (R84, R88, R92). -/
def decode : Request → Instr
  | .command c => decodeCommand c
  | .frame addr data => decodeFrame addr data

/-! ### Encoding -/

/-- The raw word of an instruction, unused slots and bits 0 (30_encoding.md R80 to R83, R92). A read frame's data byte is
not the engine's, and is written 0. -/
def encode : Instr → Request
  | .reserved00 => .command { op := 0x00 }
  | .wbyte value => .command { op := 0x01, a0 := value.setWidth 16 }
  | .rbyte => .command { op := 0x02 }
  | .rreg addr => .command { op := 0x03, a0 := addr.setWidth 16 }
  | .wreg addr value => .command { op := 0x04, a0 := addr.setWidth 16, a1 := value.setWidth 16 }
  | .gwrite addr value => .command { op := 0x05, a0 := addr.setWidth 16, a1 := value.setWidth 16 }
  | .enc n => .command { op := 0x06, a0 := n }
  | .dec byte => .command { op := 0x07, a0 := byte.setWidth 16 }
  | .clamp field d => .command { op := 0x08, a0 := field.setWidth 16, a1 := d }
  | .wrap field x => .command { op := 0x09, a0 := field.setWidth 16, a1 := x }
  | .getf field => .command { op := 0x0A, a0 := field.setWidth 16 }
  | .setymd year month day => .command { op := 0x0B, a0 := year, a1 := month, a2 := day }
  | .sethms hour minute second => .command { op := 0x0C, a0 := hour, a1 := minute, a2 := second }
  | .setdt year month day weekday hour minute second =>
    .command { op := 0x0D, a0 := year, a1 := month, a2 := day, a3 := weekday, a4 := hour, a5 := minute, a6 := second }
  | .start => .command { op := 0x0E }
  | .pause => .command { op := 0x0F }
  | .reserved10to1F low => .command { op := 0x10 ||| low.setWidth 5 }
  | .frameWrSecond data => .frame 0x80 data
  | .frameRdSecond => .frame 0x81 0
  | .frameWrMinute data => .frame 0x82 data
  | .frameRdMinute => .frame 0x83 0
  | .frameWrHour data => .frame 0x84 data
  | .frameRdHour => .frame 0x85 0
  | .frameWrDay data => .frame 0x86 data
  | .frameRdDay => .frame 0x87 0
  | .frameWrMonth data => .frame 0x88 data
  | .frameRdMonth => .frame 0x89 0
  | .frameWrWeekday data => .frame 0x8A data
  | .frameRdWeekday => .frame 0x8B 0
  | .frameWrYear data => .frame 0x8C data
  | .frameRdYear => .frame 0x8D 0
  | .frameWrWp data => .frame 0x8E data
  | .frameRdWp => .frame 0x8F 0
  | .frameWrControl data => .frame 0x90 data
  | .frameRdControl => .frame 0x91 0
  | .frameWrRamBase data => .frame 0xC0 data
  | .frameRdRamBase => .frame 0xC1 0
  | .frameWriteAny addr data => .frame addr data
  | .frameReadAny addr => .frame addr 0

/-- What `OVERLAP` records of a presented word: its opcode, not decoded (60_exceptions.md R206, R213). A bare frame has no
opcode; its address byte is recorded (assumption log 12). -/
def Request.overlapInfo : Request → Word
  | .command c => c.op.setWidth 16
  | .frame addr _ => addr.setWidth 16

/-! ### Raw words as bytes
The command port is parallel and a frame is two bytes on the wire, so the spec gives no byte layout. The model lays a
word out for the opcode table's bit numbering (assumption log 13): the first byte is the opcode (bits 7:5 zero) or the
address byte; a command's slots follow, each low byte first; a write frame's data byte follows. -/

/-- Why a list of bytes is not a raw word. -/
inductive Reject where
  /-- There is no byte. -/
  | noBytes
  /-- A command with fewer than 15 bytes. -/
  | shortCommand
  /-- A write frame without its data byte. -/
  | shortFrame
  deriving DecidableEq, Repr

/-- Two bytes as one slot, low byte first. -/
def slotOfBytes (lo hi : Byte) : Word := hi.setWidth 16 <<< 8 ||| lo.setWidth 16

/-- Read one raw word off the front of a list of bytes. -/
def requestOfBytes : List Byte → Except Reject (Request × List Byte)
  | [] => .error .noBytes
  | b :: rest =>
    if b < 0x20 then
      match rest with
      | l0 :: h0 :: l1 :: h1 :: l2 :: h2 :: l3 :: h3 :: l4 :: h4 :: l5 :: h5 :: l6 :: h6 :: rest' =>
        .ok (.command { op := b.setWidth 5, a0 := slotOfBytes l0 h0, a1 := slotOfBytes l1 h1, a2 := slotOfBytes l2 h2,
                        a3 := slotOfBytes l3 h3, a4 := slotOfBytes l4 h4, a5 := slotOfBytes l5 h5,
                        a6 := slotOfBytes l6 h6 }, rest')
      | _ => .error .shortCommand
    else if b.getLsbD 0 then .ok (.frame b 0, rest)
    else
      match rest with
      | data :: rest' => .ok (.frame b data, rest')
      | [] => .error .shortFrame

/-- Decode one instruction off the front of a list of bytes: total, rejecting by name. -/
def decodeBytes (bs : List Byte) : Except Reject (Instr × List Byte) :=
  match requestOfBytes bs with
  | .ok (r, rest) => .ok (decode r, rest)
  | .error e => .error e

/-- A slot as its two bytes, low byte first. -/
def bytesOfSlot (a : Word) : List Byte := [a.setWidth 8, (a >>> 8).setWidth 8]

/-- The bytes of a raw word. -/
def bytesOfRequest : Request → List Byte
  | .command c =>
    c.op.setWidth 8 :: (bytesOfSlot c.a0 ++ bytesOfSlot c.a1 ++ bytesOfSlot c.a2 ++ bytesOfSlot c.a3 ++
      bytesOfSlot c.a4 ++ bytesOfSlot c.a5 ++ bytesOfSlot c.a6)
  | .frame addr data => if addr.getLsbD 0 then [addr] else [addr, data]

/-- The bytes of an instruction. -/
def encodeBytes (i : Instr) : List Byte := bytesOfRequest (encode i)

/-- The first `n` bytes of a number, least significant first. -/
def bytesOfNat : Nat → Nat → List Byte
  | 0, _ => []
  | n + 1, w => BitVec.ofNat 8 w :: bytesOfNat n (w / 256)

/-- The length in bytes of the longest raw word: an opcode and seven slots. -/
def longestWord : Nat := 15

/-- The raw word whose bits are `w`, numbered as spec/opcode_table.json numbers them; the bits above `nbits` are 0. -/
def requestOfTableWord (nbits w : Nat) : Option Request :=
  match requestOfBytes (bytesOfNat longestWord (w % 2 ^ nbits)) with
  | .ok (r, _) => some r
  | .error _ => none

/-- The instruction the decoder reads from a word numbered as spec/opcode_table.json numbers it. -/
def decodeTableWord (nbits w : Nat) : Option Instr := (requestOfTableWord nbits w).map decode

end Sys2Proof
end

