-- ==== Sys2Proof/Config.lean ====
section
/-!
DEFINITION. What an implementation fixes, and the free values: constants with no body, so that no proof can see what
they are and a claim holds whatever they are.
-/

namespace Sys2Proof.Config

/-- 00_scope.md R13, 92_eei_decisions.md D14: the default of the binding parameter `STRICT`. -/
def defaultStrict : Bool := false

/-- FREE VALUE. The `n`-th level drawn from the DATA line where no rule says what it is: a sample of an unspecified
Device (00_scope.md R8, 92_eei_decisions.md D4), a sample while the reference Device drives nothing (20_memory.md R69)
and a data bit it latches while the engine drives nothing (R72). Assumption log 1, 18. -/
opaque dioDraw : Nat → Bool

/-- FREE VALUE. What the Device's register at a write address holds before any frame of the run has written it
(10_state.md R38, 70_reset_and_hazards.md R228, 92_eei_decisions.md D19). Assumption log 16. -/
opaque unwrittenByte : Nat → Byte

/-- OPEN PARAMETER of 92_eei_decisions.md D26: the least time between two actions. No rule reads it and nothing in the
model does. Assumption log 23. -/
opaque tAction : Nat

end Sys2Proof.Config
end

