-- ==== Sys2Proof/Machine/State.lean ====
section
/-!
DEFINITION. The state of a run: the engine (10_state.md R23 to R37), its trace (R40), the Device at the far end of the
lines (R38, 20_memory.md R66) and the inputs of the coming steps (00_scope.md R19). Plain data throughout.
-/

namespace Sys2Proof.Machine

/-! ### The wire -/

/-- The three lines (00_scope.md R9, R16). -/
inductive Line where
  | clk | ce | dio
  deriving DecidableEq, Repr

/-- The four faults of the host port (60_exceptions.md R206). -/
inductive FaultCause where
  | illegalCommand | illegalField | codecDomain | overlap
  deriving DecidableEq, Repr

/-- A trace event: `Set(line, level)`, `Sample -> level` (10_state.md R40) or `Fault(F, info)` (60_exceptions.md R207). -/
inductive Event where
  | set (l : Line) (level : Bool)
  | sample (level : Bool)
  | fault (cause : FaultCause) (info : Word)
  deriving DecidableEq, Repr

/-! ### Command sequencing (10_state.md R28 to R32) -/

/-- A wire primitive of a command's pseudocode: one engine step each (00_scope.md R16, R18). `drive i b` is
`SetLine(DIO, b)` and `sample i` is `Sample()`, in the loop iteration `i` of a byte transfer. -/
inductive Prim where
  | clk (level : Bool)
  | ce (level : Bool)
  | drive (i : Fin 8) (level : Bool)
  | sample (i : Fin 8)
  deriving DecidableEq, Repr

/-- What START and PAUSE do to bit 7 of the raw seconds byte (44_facade.md R184, R185). -/
inductive HaltOp where
  | clear | set
  deriving DecidableEq, Repr

/-- The part of a command's pseudocode that follows its last lined-up primitive and takes no step of its own (R18). -/
inductive Epilogue where
  /-- The command returns nothing. -/
  | finish
  /-- `result <- zext_16(acc)` (RBYTE, RREG). -/
  | returnByte
  /-- Mask, decode and `ReadValue(f, d)` (GETF). -/
  | readValue (f : Field)
  /-- `GuardedWrite(0x80, raw & 0x7F)` or `GuardedWrite(0x80, raw | 0x80)` (START, PAUSE). -/
  | writeBack (op : HaltOp)
  /-- The end of a bare write frame. -/
  | endWriteFrame
  /-- The end of a bare read frame: the byte is handed on as `raw`. -/
  | endReadFrame
  deriving DecidableEq, Repr

/-- The remaining continuation `k` of a command (10_state.md R28, R29). -/
structure Cont where
  prims : List Prim
  after : Epilogue
  deriving DecidableEq, Repr

/-- `slot` (10_state.md R29). `binding` is a binding of which the second wire action is still to come
(70_reset_and_hazards.md R226; assumption log 8). -/
inductive Slot where
  | idle
  | busy (cmd : Instr) (k : Cont)
  | binding (strict : Bool)
  deriving DecidableEq, Repr

/-- The temporaries `i`, `acc` (10_state.md R31), `raw` and `d` (R32). Their values between commands are unspecified and
no rule reads them (assumption log 4). -/
structure Temps where
  bitIndex : Fin 8 := 0
  acc : Byte := 0
  raw : Byte := 0
  decoded : Nat := 0
  deriving DecidableEq, Repr

/-- `status` (10_state.md R34). -/
inductive Status where
  | ok | outOfRange
  deriving DecidableEq, Repr

/-! ### The Device -/

/-- The Device's registers as pairs of a write address and a byte, addresses strictly rising. An address that is not
listed holds a byte nobody knows (assumption log 16). -/
abbrev Memory := List Host.Cell

/-- The frame phase of the reference Device (20_memory.md R66). -/
inductive Phase where
  | off | addr | readData | writeData | ignore
  deriving DecidableEq, Repr

/-- The reference Device (20_memory.md R66). -/
structure RefDevice where
  /-- `reg[a]`, one byte for each even wire address. -/
  reg : Memory := []
  phase : Phase := .off
  /-- `n`, the rising-edge counter. -/
  clocks : Nat := 0
  /-- `A`, the address shift register. -/
  addrShift : Byte := 0
  /-- `D`, the data shift register. -/
  dataShift : Byte := 0
  /-- The level the engine drives on DATA, or nothing once it samples the line (R72; assumption log 18). -/
  dio : Option Bool := none
  deriving DecidableEq, Repr

/-- What stands at the far end of the three lines. -/
inductive Device where
  /-- Any Device whatever: `levels` are the levels it presents at the coming samples, oldest first; after them every
  sample is a free draw (00_scope.md R8, 10_state.md R26). Its registers are not represented (assumption log 15). -/
  | unspecified (levels : List Bool)
  /-- The reference Device of 20_memory.md R66 to R72. -/
  | reference (r : RefDevice)
  /-- The unpowered reference Device of 20_memory.md R73. -/
  | unpowered (r : RefDevice)
  deriving DecidableEq, Repr

/-! ### Inputs -/

/-- What the outside presents in one step. -/
inductive PortInput where
  /-- `cmd_valid = 0`. -/
  | quiet
  /-- `cmd_valid = 1` with this word on the port (30_encoding.md R80, R91), or a bare frame (assumption log 12). -/
  | present (r : Request)
  /-- `bind(STRICT)` (70_reset_and_hazards.md R226). -/
  | bind (strict : Bool)
  deriving DecidableEq, Repr

/-! ### Stops -/

/-- The reasons the machine stops with a fault. The faults of 60_exceptions.md are none of these: they are next states. -/
inductive Fault where
  /-- Raised by `readDioPort` only, when the level of DATA is read while it has no value (10_state.md R25,
  92_eei_decisions.md D5: "reading it before faults the model"; 93_implementation_defined.md calls it `refuse`, and the
choice is assumption log 25). No instruction reads it. Safe. -/
  | dioLevelUnknown
  deriving DecidableEq, Repr

/-- The reasons the machine gives no meaning. -/
inductive Refusal where
  /-- Raised by `exec` for an instruction that has no meaning yet. Safe. -/
  | notModelled (mnemonic : String)
  /-- Raised by `readResultPort` only, when `result` is read before a value-returning command has completed (10_state.md
  R33, 93_implementation_defined.md: "no value; reading it is `refuse`"). No instruction reads it. Safe. -/
  | resultHasNoValue
  deriving DecidableEq, Repr

/-! ### The state -/

structure State where
  /-- `clk_q`, driving `clk_o` (10_state.md R23). -/
  clkQ : Bool
  /-- `ce_q`, driving `ce_o` (R24). -/
  ceQ : Bool
  /-- `dio_q`, driving `dio_o`; no value until the first `SetLine(DIO, _)` (R25). -/
  dioQ : Option Bool
  /-- `STRICT`, constant from binding to binding (R27). -/
  strict : Bool
  /-- `slot` (R29). -/
  slot : Slot
  /-- `i`, `acc`, `raw`, `d` (R31, R32). -/
  tmp : Temps
  /-- `result`; no value until the first value-returning command completes (R33). -/
  result : Option Word
  /-- `status` (R34). -/
  status : Status
  /-- `done` (R35). -/
  done : Bool
  /-- `fault`, sticky until binding (R36). -/
  fault : Bool
  /-- `fault_cause` (R37). -/
  faultCause : BitVec 3
  /-- The trace, oldest event first (R40). -/
  trace : List Event
  /-- The Device at the far end of the lines (R38). -/
  device : Device
  /-- What the outside presents in the coming steps; nothing after the last entry (00_scope.md R19). -/
  inputs : List PortInput
  /-- How many free values have been drawn: the model's own counter (assumption log 19). -/
  draws : Nat
  deriving DecidableEq, Repr

/-- The state right after the first binding, with the default `STRICT` (10_state.md R42, 70_reset_and_hazards.md R226):
the two binding actions stand in the trace, and the Device is any Device (R228). -/
def State.reset : State where
  clkQ := false
  ceQ := false
  dioQ := none
  strict := Config.defaultStrict
  slot := .idle
  tmp := {}
  result := none
  status := .ok
  done := false
  fault := false
  faultCause := 0
  trace := [.set .clk false, .set .ce false]
  device := .unspecified []
  inputs := []
  draws := 0

end Sys2Proof.Machine
end

