-- ==== Sys2Proof/WellFormed.lean ====
section
/-!
DEFINITION. When an instruction is one the encoding admits. Operand widths are in the types, so two checks remain, both on
the two rows of opcode_table.json that cover the addresses the map does not name: the direction bit (20_memory.md R48)
and that no named row covers the address (30_encoding.md R92).
-/

namespace Sys2Proof

/-- An instruction that some raw word spells. -/
def Instr.wf : Instr → Bool
  | .frameWriteAny addr _ => !addr.getLsbD 0 && !namedAddress addr
  | .frameReadAny addr => addr.getLsbD 0 && !namedAddress addr
  | .wbyte _ | .rbyte | .rreg _ | .wreg _ _ | .gwrite _ _ => true
  | .enc _ | .dec _ | .clamp _ _ | .wrap _ _ => true
  | .getf _ | .setymd _ _ _ | .sethms _ _ _ | .setdt _ _ _ _ _ _ _ | .start | .pause => true
  | .reserved00 | .reserved10to1F _ => true
  | .frameWrSecond _ | .frameRdSecond => true
  | .frameWrMinute _ | .frameRdMinute => true
  | .frameWrHour _ | .frameRdHour => true
  | .frameWrDay _ | .frameRdDay => true
  | .frameWrMonth _ | .frameRdMonth => true
  | .frameWrWeekday _ | .frameRdWeekday => true
  | .frameWrYear _ | .frameRdYear => true
  | .frameWrWp _ | .frameRdWp => true
  | .frameWrControl _ | .frameRdControl => true
  | .frameWrRamBase _ | .frameRdRamBase => true

end Sys2Proof
end

