-- ==== Sys2Proof/Machine/Operands.lean ====
section
/-!
DEFINITION. Operand forms of the commands: field codes (30_encoding.md R83, R85), the wire addresses of a field
(20_memory.md R49, 30_encoding.md R86), and the codes of the faults (60_exceptions.md R206).
-/

namespace Sys2Proof.Machine

/-- The field a code names; codes 6 and 7 are reserved (30_encoding.md R83, R85). -/
def fieldOfCode (code : BitVec 3) : Option Field :=
  match code with
  | 0#3 => some .second
  | 1#3 => some .minute
  | 2#3 => some .hour
  | 3#3 => some .day
  | 4#3 => some .month
  | 5#3 => some .year
  | _ => none

/-- The code of a field (30_encoding.md R83). -/
def codeOfField : Field → BitVec 3
  | .second => 0
  | .minute => 1
  | .hour => 2
  | .day => 3
  | .month => 4
  | .year => 5

/-- The register a calendar field is held in (20_memory.md R49). -/
def regOfField : Field → Reg
  | .second => .second
  | .minute => .minute
  | .hour => .hour
  | .day => .day
  | .month => .month
  | .year => .year

/-- `waddr(f)` (20_memory.md R49). -/
def waddr (f : Field) : Byte := (regOfField f).waddr

/-- `raddr(f) = waddr(f) + 1` (20_memory.md R49, 41_transport.md R124). -/
def raddr (f : Field) : Byte := waddr f + 1

/-- `fault_cause` of a fault (60_exceptions.md R206). -/
def faultCode : FaultCause → BitVec 3
  | .illegalCommand => 1
  | .illegalField => 2
  | .codecDomain => 3
  | .overlap => 4

end Sys2Proof.Machine
end

