-- ==== Sys2Proof/Machine/Device.lean ====
section
/-!
DEFINITION. The Device's side of the lines: its register file, the reference Device (20_memory.md R66 to R72), the
unpowered Device (R73) and the unspecified Device (00_scope.md R8). No engine rule rests on the reference Device.
-/

namespace Sys2Proof.Machine

/-! ### The register file -/

/-- The listed byte at an address, if any. -/
def Memory.lookup : Memory → Nat → Option Byte
  | [], _ => none
  | (k, v) :: m, a => if k = a then some v else Memory.lookup m a

/-- The byte at an address; one that nothing has written is free (assumption log 16). -/
def Memory.read (m : Memory) (a : Nat) : Byte := (Memory.lookup m a).getD (Config.unwrittenByte a)

/-- Store a byte, keeping the addresses rising. -/
def Memory.write : Memory → Nat → Byte → Memory
  | [], a, v => [(a, v)]
  | (k, w) :: m, a, v =>
    if a < k then (a, v) :: (k, w) :: m
    else if a = k then (a, v) :: m
    else (k, w) :: Memory.write m a v

/-- The canonical form: addresses strictly rising, each an even wire address (20_memory.md R46, R66). -/
abbrev Memory.wf (m : Memory) : Prop :=
  m.Pairwise (fun x y => x.1 < y.1) ∧ ∀ c ∈ m, c.1 < 256 ∧ c.1 % 2 = 0

/-! ### The reference Device -/

/-- Put a level at bit `i` of a byte. -/
def putBit (v : Byte) (i : Nat) (b : Bool) : Byte :=
  if b then v ||| (1#8 <<< i) else v &&& ~~~(1#8 <<< i)

/-- The register a wire address reaches: a read frame at `a + 1` reads `reg[a]` (20_memory.md R66, R69). -/
def regIndex (a : Byte) : Nat := (a &&& 0xFE).toNat

/-- The register byte a wire address reaches. -/
def RefDevice.regAt (r : RefDevice) (a : Byte) : Byte := Memory.read r.reg (regIndex a)

/-- CE from 0 to 1 (20_memory.md R67). -/
def RefDevice.ceRise (r : RefDevice) : RefDevice :=
  { r with phase := .addr, clocks := 0, addrShift := 0, dataShift := 0 }

/-- The Device accepts the write: the write-protect register itself, or protection off (20_memory.md R70). -/
def RefDevice.accepts (r : RefDevice) : Bool :=
  r.addrShift == Reg.writeProtect.waddr || r.regAt Reg.writeProtect.waddr == 0x00

/-- CE from 1 to 0: a complete write frame is committed, and the frame ends in every case (20_memory.md R70, R71). -/
def RefDevice.ceFall (r : RefDevice) : RefDevice :=
  if r.phase = .writeData ∧ r.clocks = 16 ∧ r.accepts = true then
    { r with reg := Memory.write r.reg (regIndex r.addrShift) r.dataShift, phase := .off }
  else { r with phase := .off }

/-- CLK from 0 to 1 with CE high and `level` on DATA (20_memory.md R68, R70). A read frame counts its clocks too, which
R69 reads (assumption log 17). -/
def RefDevice.clkRise (r : RefDevice) (level : Bool) : RefDevice :=
  match r.phase with
  | .addr =>
    let shifted := putBit r.addrShift r.clocks level
    { r with addrShift := shifted, clocks := r.clocks + 1,
             phase := if r.clocks + 1 = 8 then (if shifted.getLsbD 0 then .readData else .writeData) else .addr }
  | .writeData =>
    if r.clocks < 16 then
      { r with dataShift := putBit r.dataShift (r.clocks - 8) level, clocks := r.clocks + 1 }
    else r
  | .readData => if r.clocks < 16 then { r with clocks := r.clocks + 1 } else r
  | .off => r
  | .ignore => r

/-- CLK from 1 to 0 with CE high: after bit 7 the Device drives nothing further (20_memory.md R69; assumption log 17). -/
def RefDevice.clkFall (r : RefDevice) : RefDevice :=
  if r.phase = .readData ∧ r.clocks = 16 then { r with phase := .ignore } else r

/-- The level the Device drives on DATA, with CLK at `clk`: bit `j` of the register from the falling edge that ends clock
`8 + j` until the next falling edge (20_memory.md R69). -/
def RefDevice.drives (r : RefDevice) (clk : Bool) : Option Bool :=
  let ended := if clk then r.clocks - 1 else r.clocks
  if r.phase = .readData ∧ 8 ≤ ended ∧ ended < 16 then some ((r.regAt r.addrShift).getLsbD (ended - 8)) else none

/-! ### The Device as the engine meets it -/

/-- CLK is set to `level`: an edge is a change of level, and a CLK edge while CE is 0 is ignored (20_memory.md R68 to R71).
The level the reference Device latches is the one the engine drives, or a draw when it drives none (R72). -/
def Device.onClk (d : Device) (before level ce : Bool) (draws : Nat) : Device × Nat :=
  match d with
  | .unspecified levels => (.unspecified levels, draws)
  | .unpowered r => (.unpowered r, draws)
  | .reference r =>
    if ce && !before && level then
      match r.dio with
      | some b => (.reference (r.clkRise b), draws)
      | none => (.reference (r.clkRise (Config.dioDraw draws)), draws + 1)
    else if ce && before && !level then (.reference r.clkFall, draws)
    else (.reference r, draws)

/-- CE is set to `level` (20_memory.md R67, R70, R71; R73: an unpowered Device commits nothing). -/
def Device.onCe (d : Device) (before level : Bool) : Device :=
  match d with
  | .unspecified levels => .unspecified levels
  | .unpowered r => .unpowered r
  | .reference r =>
    if !before && level then .reference r.ceRise
    else if before && !level then .reference r.ceFall
    else .reference r

/-- The engine drives DATA to `level`. -/
def Device.onDrive (d : Device) (level : Bool) : Device :=
  match d with
  | .unspecified levels => .unspecified levels
  | .unpowered r => .unpowered r
  | .reference r => .reference { r with dio := some level }

/-- The engine samples DATA with CLK at `clk` and CE at `ce`: the level it gets, the Device and the draw counter after. An
unspecified Device presents its lined-up level or a draw (10_state.md R26), the reference Device the bit it drives or a
draw (20_memory.md R69, R72), an unpowered Device 1 (R73). -/
def Device.onSample (d : Device) (clk ce : Bool) (draws : Nat) : Bool × Device × Nat :=
  match d with
  | .unspecified (b :: levels) => (b, .unspecified levels, draws)
  | .unspecified [] => (Config.dioDraw draws, .unspecified [], draws + 1)
  | .unpowered r => (true, .unpowered r, draws)
  | .reference r =>
    match (if ce then r.drives clk else none) with
    | some b => (b, .reference { r with dio := none }, draws)
    | none => (Config.dioDraw draws, .reference { r with dio := none }, draws + 1)

/-- The registers of a Device whose registers are represented. -/
def Device.registers : Device → Option Memory
  | .unspecified _ => none
  | .reference r => some r.reg
  | .unpowered r => some r.reg

end Sys2Proof.Machine
end

