-- ==== Sys2Proof/Machine/Codec.lean ====
section
/-!
DEFINITION. FieldCodec's functions: the packed-decimal conversions (43_fieldcodec.md R146, R147), the read policy (R151 to
R153) and the write policy (R156, R157).
-/

namespace Sys2Proof.Machine

/-- `decimalToPacked(n)`: tens in the high nibble, units in the low nibble (43_fieldcodec.md R146). Its domain is 0 to 99;
ENC refuses the rest (R149) and every other caller wraps first (R156). -/
def decimalToPacked (n : Nat) : Byte := BitVec.ofNat 8 (n / 10 * 16 + n % 10)

/-- `packedToDecimal(b)`, defined for every byte, nibbles above 9 included (43_fieldcodec.md R147). -/
def packedToDecimal (b : Byte) : Nat := (b >>> 4).toNat * 10 + (b &&& 0x0F).toNat

/-- `lo(f)`, on the decoded value (43_fieldcodec.md R151). -/
def fieldLo : Field → Nat
  | .second => 0
  | .minute => 0
  | .hour => 0
  | .day => 1
  | .month => 1
  | .year => 0

/-- `hi(f)`, on the decoded value (43_fieldcodec.md R151). -/
def fieldHi : Field → Nat
  | .second => 59
  | .minute => 59
  | .hour => 23
  | .day => 31
  | .month => 12
  | .year => 99

/-- The write modulus `m(f)` (43_fieldcodec.md R156). -/
def fieldModulus : Field → Nat
  | .second => 60
  | .minute => 60
  | .hour => 24
  | .day => 32
  | .month => 13
  | .year => 100

/-- `clamp(x, lo, hi) = min(max(x, lo), hi)` (00_scope.md R15). -/
def clampTo (x lo hi : Nat) : Nat := min (max x lo) hi

/-- `clampRead(f, d)`: the century 2000 is added to the clamped year (43_fieldcodec.md R152, R153). -/
def clampRead (f : Field) (d : Nat) : Nat :=
  match f with
  | .year => 2000 + min d 99
  | f => clampTo d (fieldLo f) (fieldHi f)

/-- `inRange(f, d)` (43_fieldcodec.md R155). -/
def inRange (f : Field) (d : Nat) : Bool := decide (fieldLo f ≤ d) && decide (d ≤ fieldHi f)

/-- `wrap(f, x) = x % m(f)` (43_fieldcodec.md R157). -/
def wrapField (f : Field) (x : Nat) : Nat := x % fieldModulus f

/-- The data byte of a calendar write: `decimalToPacked(wrap(f, x))` (30_encoding.md R87). -/
def fieldByte (f : Field) (x : Word) : Byte := decimalToPacked (wrapField f x.toNat)

/-- The raw byte of a read as it is decoded: the second field masks the halt bit, no other field is masked
(44_facade.md R176, R179; 90_conflicts.md C2). -/
def maskRead (f : Field) (raw : Byte) : Byte :=
  match f with
  | .second => raw &&& 0x7F
  | _ => raw

/-- The seconds byte START and PAUSE write back (44_facade.md R184, R185). -/
def haltByte (op : HaltOp) (raw : Byte) : Byte :=
  match op with
  | .clear => raw &&& 0x7F
  | .set => raw ||| 0x80

end Sys2Proof.Machine
end

