-- ==== Sys2Proof/Machine/Flags.lean ====
section
/-!
DEFINITION. Every flag of the engine (10_state.md R41): the status and the result of a read (43_fieldcodec.md R155), the
completion of a command (10_state.md R33 to R35), `busy` (R30), and the output ports (00_scope.md R19).
-/

namespace Sys2Proof.Machine

/-- `status` of `ReadValue(f, d)` (43_fieldcodec.md R155). -/
def readStatus (strict : Bool) (f : Field) (d : Nat) : Status :=
  if strict && !inRange f d then .outOfRange else .ok

/-- `result` of `ReadValue(f, d)`: unclamped and without the century when out of range in strict mode (43_fieldcodec.md R155). -/
def readResult (strict : Bool) (f : Field) (d : Nat) : Word :=
  if strict && !inRange f d then BitVec.ofNat 16 d else BitVec.ofNat 16 (clampRead f d)

/-- The completion of a command that returns nothing: `slot <- Idle`, `done` for one step, `status <- OK`, `result`
unchanged (10_state.md R33 to R35, 30_encoding.md R91). -/
def complete (s : State) : State := { s with slot := .idle, done := true, status := .ok }

/-- The completion of a command that returns a value. -/
def completeWith (v : Word) (status : Status) (s : State) : State :=
  { s with slot := .idle, done := true, status := status, result := some v }

/-- `ReadValue(f, d)` and the completion of the command (43_fieldcodec.md R155). -/
def completeRead (f : Field) (d : Nat) (s : State) : State :=
  completeWith (readResult s.strict f d) (readStatus s.strict f d) s

/-- `busy = (slot != Idle)` (10_state.md R30). -/
def State.busy (s : State) : Bool := s.slot != .idle

/-- The output ports (00_scope.md R19). -/
structure Ports where
  clkO : Bool
  ceO : Bool
  dioO : Option Bool
  busy : Bool
  done : Bool
  result : Option Word
  status : Status
  fault : Bool
  faultCause : BitVec 3
  deriving DecidableEq, Repr

/-- What the outside sees of a state (00_scope.md R19). -/
def State.ports (s : State) : Ports where
  clkO := s.clkQ
  ceO := s.ceQ
  dioO := s.dioQ
  busy := s.busy
  done := s.done
  result := s.result
  status := s.status
  fault := s.fault
  faultCause := s.faultCause

/-- The Host reads `result`; before a value-returning command has completed there is none, "a Host must not read it
before" (10_state.md R33), and "reading it is `refuse`" (93_implementation_defined.md). No instruction and no step does. -/
def readResultPort (s : State) : Except Refusal Word :=
  match s.result with
  | some v => .ok v
  | none => .error .resultHasNoValue

/-- The level of `dio_o`; before the first `SetLine(DIO, _)` there is none, a model "must not read a level from it before
then" (10_state.md R25), and reading it stops. No instruction and no step does. That the stop is a fault, as
92_eei_decisions.md D5 has it, and not the `refuse` of 93_implementation_defined.md, is a DESIGN CHOICE (assumption log
25). -/
def readDioPort (s : State) : Except Fault Bool :=
  match s.dioQ with
  | some b => .ok b
  | none => .error .dioLevelUnknown

end Sys2Proof.Machine
end

