-- ==== Sys2Proof/Machine/Pseudocode.lean ====
section
/-!
DEFINITION. The pseudocode of the byte transfers, frames, guarded writes and field writes as the lists of wire primitives
they perform, in order (00_scope.md R18).
-/

namespace Sys2Proof.Machine

/-- `for i in 0..7`: least-significant bit first (40_bitlink.md R107, R110; 20_memory.md R54). -/
def bitOrder : List (Fin 8) := [0, 1, 2, 3, 4, 5, 6, 7]

/-- `WriteBit(b)`: set DIO, then pulse CLK (40_bitlink.md R106). -/
def writeBit (i : Fin 8) (b : Bool) : List Prim := [.drive i b, .clk true, .clk false]

/-- `ReadBit()`: sample DIO, then pulse CLK (40_bitlink.md R106). -/
def readBit (i : Fin 8) : List Prim := [.sample i, .clk true, .clk false]

/-- `writeByte(value)` (40_bitlink.md R107). -/
def writeByte (v : Byte) : List Prim := bitOrder.flatMap fun i => writeBit i (v.getLsbD i)

/-- `readByte()` (40_bitlink.md R110). -/
def readByte : List Prim := bitOrder.flatMap readBit

/-- `ReadFrame(a)` (41_transport.md R120). -/
def readFrame (a : Byte) : List Prim := .ce true :: (writeByte a ++ readByte ++ [.ce false])

/-- `WriteFrame(a, v)` (41_transport.md R120). -/
def writeFrame (a v : Byte) : List Prim := .ce true :: (writeByte a ++ writeByte v ++ [.ce false])

/-- `GuardedWrite(addr, value)`: Unlock, Write, Reassert (42_writeguard.md R136). -/
def guardedWrite (addr value : Byte) : List Prim :=
  writeFrame Reg.writeProtect.waddr 0x00 ++ writeFrame addr value ++ writeFrame Reg.writeProtect.waddr 0x00

/-- `FieldWrite(f, x)` (44_facade.md R175). -/
def fieldWrite (f : Field) (x : Word) : List Prim := guardedWrite (waddr f) (fieldByte f x)

/-- The body of SETYMD: year, month, day (44_facade.md R180). -/
def setDateBody (year month day : Word) : List Prim :=
  fieldWrite .year year ++ fieldWrite .month month ++ fieldWrite .day day

/-- The body of SETHMS: hour, minute, second (44_facade.md R181). -/
def setTimeBody (hour minute second : Word) : List Prim :=
  fieldWrite .hour hour ++ fieldWrite .minute minute ++ fieldWrite .second second

end Sys2Proof.Machine
end

