-- ==== Sys2Proof/Machine/Ops.lean ====
section
/-!
DEFINITION. The shared operations: the wire primitives (00_scope.md R16), raising a fault (60_exceptions.md R207) and the
binding that clears it (70_reset_and_hazards.md R226), the acceptance of a command (30_encoding.md R91), and the engine's
advance by one wire action.
-/

namespace Sys2Proof.Machine

/-! ### Wire primitives -/

/-- Append an event to the trace (10_state.md R40). -/
def record (e : Event) (s : State) : State := { s with trace := s.trace ++ [e] }

/-- `SetLine(CLK, level)` (10_state.md R23). -/
def setClk (level : Bool) (s : State) : State :=
  let r := s.device.onClk s.clkQ level s.ceQ s.draws
  record (.set .clk level) { s with clkQ := level, device := r.1, draws := r.2 }

/-- `SetLine(CE, level)` (10_state.md R24). -/
def setCe (level : Bool) (s : State) : State :=
  record (.set .ce level) { s with ceQ := level, device := s.device.onCe s.ceQ level }

/-- `SetLine(DIO, level)` (10_state.md R25). -/
def setDio (level : Bool) (s : State) : State :=
  record (.set .dio level) { s with dioQ := some level, device := s.device.onDrive level }

/-- `acc | (b << i)`, with `acc <- 0x00` at the start of a readByte (40_bitlink.md R110). -/
def accumulate (acc : Byte) (i : Fin 8) (b : Bool) : Byte :=
  (if i = 0 then 0x00 else acc) ||| ((if b then 1#8 else 0#8) <<< i.val)

/-- `b <- Sample(); acc <- acc | (b << i)` (40_bitlink.md R106, R110). -/
def sampleBit (i : Fin 8) (s : State) : State :=
  let r := s.device.onSample s.clkQ s.ceQ s.draws
  record (.sample r.1)
    { s with device := r.2.1, draws := r.2.2,
             tmp := { s.tmp with bitIndex := i, acc := accumulate s.tmp.acc i r.1 } }

/-- Perform one wire primitive: one engine step (00_scope.md R16). -/
def perform (p : Prim) (s : State) : State :=
  match p with
  | .clk level => setClk level s
  | .ce level => setCe level s
  | .drive i level => setDio level { s with tmp := { s.tmp with bitIndex := i } }
  | .sample i => sampleBit i s

/-! ### Faults and binding -/

/-- `raise F(info)` (60_exceptions.md R207): `fault <- 1`, `fault_cause <- code(F)`, and the event `Fault(F, info)`; no wire
action, `result` and `status` unchanged, no mode, no vector (R216). -/
def raise (cause : FaultCause) (info : Word) (s : State) : State :=
  record (.fault cause info) { s with fault := true, faultCause := faultCode cause }

/-- The first wire action of `bind(STRICT)`: `SetLine(CLK, 0)` (70_reset_and_hazards.md R226). A command in flight is
abandoned (assumption log 9). -/
def startBinding (strict : Bool) (s : State) : State :=
  { setClk false s with slot := .binding strict, done := false }

/-- The second wire action of `bind(STRICT)`, `SetLine(CE, 0)`, and the engine state it leaves: the only return from a
fault (70_reset_and_hazards.md R226, 60_exceptions.md R217). The Device is not reset (R228); but where CE was 1 with all 16
clocks of a write frame done, the reference Device commits at this fall as at any other (20_memory.md R70; assumption log
26). -/
def finishBinding (strict : Bool) (s : State) : State :=
  { setCe false s with
    slot := .idle, done := false, fault := false, faultCause := 0, status := .ok, result := none, dioQ := none,
    strict := strict, tmp := {} }

/-! ### The engine's advance -/

/-- Line up a continuation. -/
def occupy (cmd : Instr) (prims : List Prim) (after : Epilogue) (s : State) : State :=
  { s with slot := .busy cmd ⟨prims, after⟩ }

/-- What follows the last lined-up primitive, in the same step (00_scope.md R18). START and PAUSE line up their guarded
write here. -/
def runEpilogue (cmd : Instr) (after : Epilogue) (s : State) : State :=
  match after with
  | .finish => complete s
  | .returnByte => completeWith (s.tmp.acc.setWidth 16) .ok s
  | .readValue f =>
    let raw := maskRead f s.tmp.acc
    let d := packedToDecimal raw
    completeRead f d { s with tmp := { s.tmp with raw := raw, decoded := d } }
  | .writeBack op =>
    let raw := s.tmp.acc
    occupy cmd (guardedWrite Reg.second.waddr (haltByte op raw)) .finish
      { s with tmp := { s.tmp with raw := raw } }
  | .endWriteFrame => { s with slot := .idle }
  | .endReadFrame => { s with slot := .idle, tmp := { s.tmp with raw := s.tmp.acc } }

/-- One step of the engine with nothing accepted: one action of the command in flight (30_encoding.md R91), the second
action of a binding, or nothing when idle. A continuation with no primitive left, which no acceptance makes, ends
(assumption log 20). -/
def advance (s : State) : State :=
  match s.slot with
  | .idle => s
  | .binding strict => finishBinding strict s
  | .busy cmd ⟨[], after⟩ => runEpilogue cmd after s
  | .busy cmd ⟨[p], after⟩ => runEpilogue cmd after (perform p s)
  | .busy cmd ⟨p :: q :: rest, after⟩ => occupy cmd (q :: rest) after (perform p s)

/-- A step in which the port presents nothing; `done` lasts one step (10_state.md R35). -/
def quietStep (s : State) : State := advance { s with done := false }

/-! ### Acceptance -/

/-- A step in which an instruction is presented (30_encoding.md R91). A faulted engine ignores it (60_exceptions.md R217).
While `busy = 1` it is not decoded and not executed: `OVERLAP` is recorded, and what is in flight goes on (R212, R213).
Otherwise `accept` is its acceptance. That the event stands before the step's wire action is assumption log 7; a binding
under way is `busy`, and its end clears the fault again (assumption log 8). -/
def present (i : Instr) (accept : State → State) (s : State) : State :=
  if s.fault then quietStep s
  else if s.busy then advance (raise .overlap (encode i).overlapInfo { s with done := false })
  else accept { s with done := false }

/-- Accept a command with wire actions: `slot <- Busy(cmd, k)` (30_encoding.md R91). The temporaries start afresh; every
rule writes them before it reads them (10_state.md R31, R32). -/
def acceptAs (cmd : Instr) (prims : List Prim) (after : Epilogue) (s : State) : State :=
  occupy cmd prims after { s with tmp := {} }

/-- Accept a command with a field operand, or raise `ILLEGAL_FIELD` (30_encoding.md R85, 60_exceptions.md R210). -/
def withField (code : BitVec 3) (accept : Field → State → State) (s : State) : State :=
  match fieldOfCode code with
  | some f => accept f s
  | none => raise .illegalField (code.setWidth 16) s

end Sys2Proof.Machine
end

