-- ==== Sys2Proof/Machine/BitLink.lean ====
section
/-!
DEFINITION. BitLink: WBYTE and RBYTE (40_bitlink.md).
-/

namespace Sys2Proof.Machine

/-- WBYTE (40_bitlink.md R107). -/
def execWbyte (value : Byte) (s : State) : Host.Outcome State Fault Refusal :=
  .next (present (.wbyte value) (acceptAs (.wbyte value) (writeByte value) .finish) s)

/-- RBYTE (40_bitlink.md R110). -/
def execRbyte (s : State) : Host.Outcome State Fault Refusal :=
  .next (present .rbyte (acceptAs .rbyte readByte .returnByte) s)

end Sys2Proof.Machine
end

