-- ==== Sys2Proof/Machine/Facade.lean ====
section
/-!
DEFINITION. ClockFacade: GETF, SETYMD, SETHMS, SETDT, START and PAUSE (44_facade.md).
-/

namespace Sys2Proof.Machine

/-- GETF (44_facade.md R178): one read frame at `waddr(f) + 1`, then mask, decode and the read policy. -/
def execGetf (field : BitVec 3) (s : State) : Host.Outcome State Fault Refusal :=
  .next (present (.getf field)
    (withField field fun f => acceptAs (.getf field) (readFrame (raddr f)) (.readValue f)) s)

/-- SETYMD (44_facade.md R180). -/
def execSetymd (year month day : Word) (s : State) : Host.Outcome State Fault Refusal :=
  .next (present (.setymd year month day)
    (acceptAs (.setymd year month day) (setDateBody year month day) .finish) s)

/-- SETHMS (44_facade.md R181). -/
def execSethms (hour minute second : Word) (s : State) : Host.Outcome State Fault Refusal :=
  .next (present (.sethms hour minute second)
    (acceptAs (.sethms hour minute second) (setTimeBody hour minute second) .finish) s)

/-- SETDT (44_facade.md R182): the date, then the time; the weekday is written to no register (R183). -/
def execSetdt (year month day weekday hour minute second : Word) (s : State) :
    Host.Outcome State Fault Refusal :=
  .next (present (.setdt year month day weekday hour minute second)
    (acceptAs (.setdt year month day weekday hour minute second)
      (setDateBody year month day ++ setTimeBody hour minute second) .finish) s)

/-- START (44_facade.md R184): the raw seconds byte is read, its bit 7 cleared, and written back under the guard. -/
def execStart (s : State) : Host.Outcome State Fault Refusal :=
  .next (present .start (acceptAs .start (readFrame Reg.second.raddr) (.writeBack .clear)) s)

/-- PAUSE (44_facade.md R185): the raw seconds byte is read, its bit 7 set, and written back under the guard. -/
def execPause (s : State) : Host.Outcome State Fault Refusal :=
  .next (present .pause (acceptAs .pause (readFrame Reg.second.raddr) (.writeBack .set)) s)

end Sys2Proof.Machine
end

