-- ==== Sys2Proof/Machine/FieldCodec.lean ====
section
/-!
DEFINITION. FieldCodec: ENC, DEC, CLAMP and WRAP (43_fieldcodec.md). They perform no wire action and complete in the step
of their acceptance (10_state.md R35).
-/

namespace Sys2Proof.Machine

/-- ENC (43_fieldcodec.md R149): `CODEC_DOMAIN` above 99 (60_exceptions.md R211). -/
def execEnc (n : Word) (s : State) : Host.Outcome State Fault Refusal :=
  .next (present (.enc n)
    (fun s => if 99 < n.toNat then raise .codecDomain n s
              else completeWith ((decimalToPacked n.toNat).setWidth 16) .ok s) s)

/-- DEC (43_fieldcodec.md R150). -/
def execDec (byte : Byte) (s : State) : Host.Outcome State Fault Refusal :=
  .next (present (.dec byte) (completeWith (BitVec.ofNat 16 (packedToDecimal byte)) .ok) s)

/-- CLAMP (43_fieldcodec.md R158). -/
def execClamp (field : BitVec 3) (d : Word) (s : State) : Host.Outcome State Fault Refusal :=
  .next (present (.clamp field d) (withField field fun f => completeRead f d.toNat) s)

/-- WRAP (43_fieldcodec.md R159). -/
def execWrap (field : BitVec 3) (x : Word) (s : State) : Host.Outcome State Fault Refusal :=
  .next (present (.wrap field x)
    (withField field fun f => completeWith (BitVec.ofNat 16 (wrapField f x.toNat)) .ok) s)

end Sys2Proof.Machine
end

