-- ==== Sys2Proof/Machine/Frames.lean ====
section
/-!
DEFINITION. The wire frames as instructions of their own: the write frame of 30_encoding.md R79 and the read frame of R78
at each address of the map (20_memory.md R47) and at any other address (R92). A bare frame is the transaction
`MemWrite` or `MemRead` of 00_scope.md R17: its 50 wire actions and nothing of a command's (`status`, `result`, `done`); the
byte a read frame returns is handed on as `raw` (assumption log 12).
-/

namespace Sys2Proof.Machine

/-- A bare write frame at `a` with data `v`. -/
def startWriteFrame (i : Instr) (a v : Byte) (s : State) : State :=
  present i (acceptAs i (writeFrame a v) .endWriteFrame) s

/-- A bare read frame at `a`. -/
def startReadFrame (i : Instr) (a : Byte) (s : State) : State :=
  present i (acceptAs i (readFrame a) .endReadFrame) s

/-- FRAME_WR_SECOND. -/
def execFrameWrSecond (data : Byte) (s : State) : Host.Outcome State Fault Refusal :=
  .next (startWriteFrame (.frameWrSecond data) Reg.second.waddr data s)

/-- FRAME_RD_SECOND. -/
def execFrameRdSecond (s : State) : Host.Outcome State Fault Refusal :=
  .next (startReadFrame .frameRdSecond Reg.second.raddr s)

/-- FRAME_WR_MINUTE. -/
def execFrameWrMinute (data : Byte) (s : State) : Host.Outcome State Fault Refusal :=
  .next (startWriteFrame (.frameWrMinute data) Reg.minute.waddr data s)

/-- FRAME_RD_MINUTE. -/
def execFrameRdMinute (s : State) : Host.Outcome State Fault Refusal :=
  .next (startReadFrame .frameRdMinute Reg.minute.raddr s)

/-- FRAME_WR_HOUR. -/
def execFrameWrHour (data : Byte) (s : State) : Host.Outcome State Fault Refusal :=
  .next (startWriteFrame (.frameWrHour data) Reg.hour.waddr data s)

/-- FRAME_RD_HOUR. -/
def execFrameRdHour (s : State) : Host.Outcome State Fault Refusal :=
  .next (startReadFrame .frameRdHour Reg.hour.raddr s)

/-- FRAME_WR_DAY. -/
def execFrameWrDay (data : Byte) (s : State) : Host.Outcome State Fault Refusal :=
  .next (startWriteFrame (.frameWrDay data) Reg.day.waddr data s)

/-- FRAME_RD_DAY. -/
def execFrameRdDay (s : State) : Host.Outcome State Fault Refusal :=
  .next (startReadFrame .frameRdDay Reg.day.raddr s)

/-- FRAME_WR_MONTH. -/
def execFrameWrMonth (data : Byte) (s : State) : Host.Outcome State Fault Refusal :=
  .next (startWriteFrame (.frameWrMonth data) Reg.month.waddr data s)

/-- FRAME_RD_MONTH. -/
def execFrameRdMonth (s : State) : Host.Outcome State Fault Refusal :=
  .next (startReadFrame .frameRdMonth Reg.month.raddr s)

/-- FRAME_WR_WEEKDAY. -/
def execFrameWrWeekday (data : Byte) (s : State) : Host.Outcome State Fault Refusal :=
  .next (startWriteFrame (.frameWrWeekday data) Reg.weekday.waddr data s)

/-- FRAME_RD_WEEKDAY. -/
def execFrameRdWeekday (s : State) : Host.Outcome State Fault Refusal :=
  .next (startReadFrame .frameRdWeekday Reg.weekday.raddr s)

/-- FRAME_WR_YEAR. -/
def execFrameWrYear (data : Byte) (s : State) : Host.Outcome State Fault Refusal :=
  .next (startWriteFrame (.frameWrYear data) Reg.year.waddr data s)

/-- FRAME_RD_YEAR. -/
def execFrameRdYear (s : State) : Host.Outcome State Fault Refusal :=
  .next (startReadFrame .frameRdYear Reg.year.raddr s)

/-- FRAME_WR_WP. -/
def execFrameWrWp (data : Byte) (s : State) : Host.Outcome State Fault Refusal :=
  .next (startWriteFrame (.frameWrWp data) Reg.writeProtect.waddr data s)

/-- FRAME_RD_WP. -/
def execFrameRdWp (s : State) : Host.Outcome State Fault Refusal :=
  .next (startReadFrame .frameRdWp Reg.writeProtect.raddr s)

/-- FRAME_WR_CONTROL. -/
def execFrameWrControl (data : Byte) (s : State) : Host.Outcome State Fault Refusal :=
  .next (startWriteFrame (.frameWrControl data) Reg.control.waddr data s)

/-- FRAME_RD_CONTROL. -/
def execFrameRdControl (s : State) : Host.Outcome State Fault Refusal :=
  .next (startReadFrame .frameRdControl Reg.control.raddr s)

/-- FRAME_WR_RAM_BASE. -/
def execFrameWrRamBase (data : Byte) (s : State) : Host.Outcome State Fault Refusal :=
  .next (startWriteFrame (.frameWrRamBase data) Reg.ramBase.waddr data s)

/-- FRAME_RD_RAM_BASE. -/
def execFrameRdRamBase (s : State) : Host.Outcome State Fault Refusal :=
  .next (startReadFrame .frameRdRamBase Reg.ramBase.raddr s)

/-- FRAME_WRITE_ANY. -/
def execFrameWriteAny (addr data : Byte) (s : State) : Host.Outcome State Fault Refusal :=
  .next (startWriteFrame (.frameWriteAny addr data) addr data s)

/-- FRAME_READ_ANY. -/
def execFrameReadAny (addr : Byte) (s : State) : Host.Outcome State Fault Refusal :=
  .next (startReadFrame (.frameReadAny addr) addr s)

end Sys2Proof.Machine
end

