-- ==== Sys2Proof/Machine/Reserved.lean ====
section
/-!
DEFINITION. The reserved opcodes: `ILLEGAL_COMMAND` with the opcode, before any wire action (30_encoding.md R84,
60_exceptions.md R209).
-/

namespace Sys2Proof.Machine

/-- RESERVED_00. -/
def execReserved00 (s : State) : Host.Outcome State Fault Refusal :=
  .next (present .reserved00 (raise .illegalCommand 0x00) s)

/-- RESERVED_10_1F, opcode 0x10 + `low`. -/
def execReserved10to1F (low : BitVec 4) (s : State) : Host.Outcome State Fault Refusal :=
  .next (present (.reserved10to1F low) (raise .illegalCommand (0x10 ||| low.setWidth 16)) s)

end Sys2Proof.Machine
end

