-- ==== Sys2Proof/Machine/Transport.lean ====
section
/-!
DEFINITION. RegisterTransport: RREG and WREG (41_transport.md).
-/

namespace Sys2Proof.Machine

/-- RREG (41_transport.md R121): the address is transmitted as given (R123). -/
def execRreg (addr : Byte) (s : State) : Host.Outcome State Fault Refusal :=
  .next (present (.rreg addr) (acceptAs (.rreg addr) (readFrame addr) .returnByte) s)

/-- WREG (41_transport.md R126): the address is transmitted as given (R123). -/
def execWreg (addr value : Byte) (s : State) : Host.Outcome State Fault Refusal :=
  .next (present (.wreg addr value) (acceptAs (.wreg addr value) (writeFrame addr value) .finish) s)

end Sys2Proof.Machine
end

