-- ==== Sys2Proof/Machine/WriteGuard.lean ====
section
/-!
DEFINITION. WriteGuard: GWRITE (42_writeguard.md).
-/

namespace Sys2Proof.Machine

/-- GWRITE (42_writeguard.md R136): 0x00 to the protect register, the write, 0x00 again (R137). -/
def execGwrite (addr value : Byte) (s : State) : Host.Outcome State Fault Refusal :=
  .next (present (.gwrite addr value) (acceptAs (.gwrite addr value) (guardedWrite addr value) .finish) s)

end Sys2Proof.Machine
end

