-- ==== Sys2Proof/Machine/Dispatch.lean ====
section
/-! DEFINITION. One arm per constructor of `Instr`. -/

namespace Sys2Proof.Machine

def exec (i : Instr) (s : State) : Host.Outcome State Fault Refusal :=
  match i with
  | .wbyte value => Sys2Proof.Machine.execWbyte value s
  | .rbyte => Sys2Proof.Machine.execRbyte s
  | .rreg addr => Sys2Proof.Machine.execRreg addr s
  | .wreg addr value => Sys2Proof.Machine.execWreg addr value s
  | .gwrite addr value => Sys2Proof.Machine.execGwrite addr value s
  | .enc n => Sys2Proof.Machine.execEnc n s
  | .dec byte => Sys2Proof.Machine.execDec byte s
  | .clamp field d => Sys2Proof.Machine.execClamp field d s
  | .wrap field x => Sys2Proof.Machine.execWrap field x s
  | .getf field => Sys2Proof.Machine.execGetf field s
  | .setymd year month day => Sys2Proof.Machine.execSetymd year month day s
  | .sethms hour minute second => Sys2Proof.Machine.execSethms hour minute second s
  | .setdt year month day weekday hour minute second => Sys2Proof.Machine.execSetdt year month day weekday hour minute second s
  | .start => Sys2Proof.Machine.execStart s
  | .pause => Sys2Proof.Machine.execPause s
  | .reserved00 => Sys2Proof.Machine.execReserved00 s
  | .reserved10to1F low => Sys2Proof.Machine.execReserved10to1F low s
  | .frameWrSecond data => Sys2Proof.Machine.execFrameWrSecond data s
  | .frameRdSecond => Sys2Proof.Machine.execFrameRdSecond s
  | .frameWrMinute data => Sys2Proof.Machine.execFrameWrMinute data s
  | .frameRdMinute => Sys2Proof.Machine.execFrameRdMinute s
  | .frameWrHour data => Sys2Proof.Machine.execFrameWrHour data s
  | .frameRdHour => Sys2Proof.Machine.execFrameRdHour s
  | .frameWrDay data => Sys2Proof.Machine.execFrameWrDay data s
  | .frameRdDay => Sys2Proof.Machine.execFrameRdDay s
  | .frameWrMonth data => Sys2Proof.Machine.execFrameWrMonth data s
  | .frameRdMonth => Sys2Proof.Machine.execFrameRdMonth s
  | .frameWrWeekday data => Sys2Proof.Machine.execFrameWrWeekday data s
  | .frameRdWeekday => Sys2Proof.Machine.execFrameRdWeekday s
  | .frameWrYear data => Sys2Proof.Machine.execFrameWrYear data s
  | .frameRdYear => Sys2Proof.Machine.execFrameRdYear s
  | .frameWrWp data => Sys2Proof.Machine.execFrameWrWp data s
  | .frameRdWp => Sys2Proof.Machine.execFrameRdWp s
  | .frameWrControl data => Sys2Proof.Machine.execFrameWrControl data s
  | .frameRdControl => Sys2Proof.Machine.execFrameRdControl s
  | .frameWrRamBase data => Sys2Proof.Machine.execFrameWrRamBase data s
  | .frameRdRamBase => Sys2Proof.Machine.execFrameRdRamBase s
  | .frameWriteAny addr data => Sys2Proof.Machine.execFrameWriteAny addr data s
  | .frameReadAny addr => Sys2Proof.Machine.execFrameReadAny addr s

end Sys2Proof.Machine
end

