-- ==== Sys2Proof/Machine/Step.lean ====
section
/-!
DEFINITION. One engine step: the port input of the step is read off the front of `inputs` (00_scope.md R19), decoded and
run. There is no program counter and no fetch from the Device's address space (10_state.md R28, 20_memory.md R64).
-/

namespace Sys2Proof.Machine

/-- One step of the machine. With nothing presented the engine performs the next action of the command in flight. -/
def step (s : State) : Host.Outcome State Fault Refusal :=
  match s.inputs with
  | [] => .next (quietStep s)
  | .quiet :: rest => .next (quietStep { s with inputs := rest })
  | .bind strict :: rest => .next (startBinding strict { s with inputs := rest })
  | .present r :: rest => exec (decode r) { s with inputs := rest }

/-- `s` with the word `w` presented in the very next step, before whatever else the outside presents. -/
def State.withFetchWord (s : State) (nbits w : Nat) : State :=
  match requestOfTableWord nbits w with
  | some r => { s with inputs := .present r :: s.inputs }
  | none => s

end Sys2Proof.Machine
end

