-- ==== Sys2Proof/Safety.lean ====
section
/-!
DEFINITION. The terms claims are stated in: a Host that keeps the protocol (70_reset_and_hazards.md R232), runs of the
machine, the events of whole bytes and frames on the wire (30_encoding.md R77 to R79), and the invariants of the wire, the
flags and the reference Device.
-/

namespace Sys2Proof.Machine

/-! ### The Host and runs -/

/-- The engine accepts a command: `slot = Idle` and `fault = 0` (10_state.md R29). -/
def State.ready (s : State) : Prop := s.slot = .idle ∧ s.fault = false

/-- The wire is as it is between commands: CLK and CE are 0 (10_state.md R43). -/
def State.wireAtRest (s : State) : Prop := s.clkQ = false ∧ s.ceQ = false

/-- The port presents nothing in the next `n` steps, as the Host must while the engine is busy (R232). -/
def State.quietFor (s : State) (n : Nat) : Prop := ∀ x ∈ s.inputs.take n, x = PortInput.quiet

/-- `n` steps lead from `s` to `u`. -/
def Runs (n : Nat) (s u : State) : Prop := Host.Core.run Sys2Proof.core n s = .next u

/-- Instruction `i`, presented at `s`, is accepted and runs for `n` steps to `u`. -/
def Performs (i : Instr) (n : Nat) (s u : State) : Prop := ∃ t, exec i s = .next t ∧ Runs n t u

/-- A command that took `n` steps has completed: idle, `done` at 1, no fault raised, `STRICT` as it was, the inputs of `n`
steps consumed (10_state.md R27, R29, R35 to R37). -/
def Completed (n : Nat) (s u : State) : Prop :=
  u.slot = .idle ∧ u.done = true ∧ u.fault = s.fault ∧ u.faultCause = s.faultCause ∧ u.strict = s.strict ∧
  u.inputs = s.inputs.drop n

/-- A bare frame of `n` steps is over: idle, and nothing of a command's written (assumption log 12). -/
def FrameOver (n : Nat) (s u : State) : Prop :=
  u.slot = .idle ∧ u.done = false ∧ u.fault = s.fault ∧ u.faultCause = s.faultCause ∧ u.strict = s.strict ∧
  u.inputs = s.inputs.drop n ∧ u.status = s.status ∧ u.result = s.result

/-! ### Events of bytes and frames -/

/-- A wire action, as against a recorded fault (10_state.md R40). -/
def Event.isWire : Event → Bool
  | .set _ _ => true
  | .sample _ => true
  | .fault _ _ => false


/-- `SetLine(DIO, b)` and a CLK pulse (40_bitlink.md R106). -/
def bitWritten (b : Bool) : List Event := [.set .dio b, .set .clk true, .set .clk false]

/-- `Sample() -> b` and a CLK pulse (40_bitlink.md R106). -/
def bitRead (b : Bool) : List Event := [.sample b, .set .clk true, .set .clk false]

/-- The levels of a byte in wire order, bit 0 first (20_memory.md R54). -/
def wireOrder (v : Byte) : List Bool := (List.range 8).map fun i => v.getLsbD i

/-- The 24 events of writeByte (40_bitlink.md R108). -/
def byteWritten (v : Byte) : List Event := (wireOrder v).flatMap bitWritten

/-- The 24 events of readByte that returned `v` (40_bitlink.md R111). -/
def byteRead (v : Byte) : List Event := (wireOrder v).flatMap bitRead

/-- The 50 events of a write frame (30_encoding.md R79). -/
def frameWritten (a v : Byte) : List Event :=
  [.set .ce true] ++ byteWritten a ++ byteWritten v ++ [.set .ce false]

/-- The 50 events of a read frame that returned `v` (30_encoding.md R78). -/
def frameRead (a v : Byte) : List Event :=
  [.set .ce true] ++ byteWritten a ++ byteRead v ++ [.set .ce false]

/-- The 150 events of a guarded write (42_writeguard.md R139). -/
def guardWritten (a v : Byte) : List Event := frameWritten 0x8E 0x00 ++ frameWritten a v ++ frameWritten 0x8E 0x00

/-- The bare write frame at a register of the map. -/
def writeFrameAt : Reg → Byte → Instr
  | .second => .frameWrSecond
  | .minute => .frameWrMinute
  | .hour => .frameWrHour
  | .day => .frameWrDay
  | .month => .frameWrMonth
  | .weekday => .frameWrWeekday
  | .year => .frameWrYear
  | .writeProtect => .frameWrWp
  | .control => .frameWrControl
  | .ramBase => .frameWrRamBase

/-- The bare read frame at a register of the map. -/
def readFrameAt : Reg → Instr
  | .second => .frameRdSecond
  | .minute => .frameRdMinute
  | .hour => .frameRdHour
  | .day => .frameRdDay
  | .month => .frameRdMonth
  | .weekday => .frameRdWeekday
  | .year => .frameRdYear
  | .writeProtect => .frameRdWp
  | .control => .frameRdControl
  | .ramBase => .frameRdRamBase

/-! ### The wire invariant (10_state.md R43, 70_reset_and_hazards.md R241) -/

/-- What a Device that watches the lines has seen: the levels of CLK and CE, the CLK pulses of the open frame, and whether
every change so far kept the framing of R241. -/
structure WireMonitor where
  clk : Bool := false
  ce : Bool := false
  pulses : Nat := 0
  kept : Bool := true
  deriving DecidableEq, Repr

/-- One event at the monitor: CE changes, DIO changes and samples only while CLK is 0, and at most 16 CLK pulses a frame. -/
def WireMonitor.see (m : WireMonitor) : Event → WireMonitor
  | .set .clk true =>
    if m.ce then { m with clk := true, pulses := m.pulses + 1, kept := m.kept && decide (m.pulses + 1 ≤ 16) }
    else { m with clk := true }
  | .set .clk false => { m with clk := false }
  | .set .ce level => { m with ce := level, pulses := 0, kept := m.kept && !m.clk }
  | .set .dio _ => { m with kept := m.kept && !m.clk }
  | .sample _ => { m with kept := m.kept && !m.clk }
  | .fault _ _ => m

/-- The monitor after a trace. -/
def watch (m : WireMonitor) (trace : List Event) : WireMonitor := trace.foldl WireMonitor.see m

/-- The event of a primitive, but for the level a sample returns. -/
def Prim.event : Prim → Event
  | .clk level => .set .clk level
  | .ce level => .set .ce level
  | .drive _ level => .set .dio level
  | .sample _ => .sample false

/-- The framing holds at `m` and the lines are at rest. -/
def WireMonitor.atRest (m : WireMonitor) : Prop := m.kept = true ∧ m.clk = false ∧ m.ce = false

/-- The wire invariant: the trace kept the framing, it accounts for the levels of CLK and CE, and the lines are at rest
when the engine is idle and will be once the lined-up primitives of a command are done. -/
def WireInv (s : State) : Prop :=
  let m := watch {} s.trace
  m.kept = true ∧ m.clk = s.clkQ ∧ m.ce = s.ceQ ∧
  match s.slot with
  | .idle => m.atRest
  | .binding _ => m.clk = false
  | .busy _ k => k.prims ≠ [] ∧ (watch m (k.prims.map Prim.event)).atRest

/-! ### The flag invariant -/

/-- `fault_cause` is the code of a fault exactly when `fault` stands (60_exceptions.md R206), `OUT_OF_RANGE` occurs only
with `STRICT` (10_state.md R34), and `done` only while idle (10_state.md R35, 30_encoding.md R91). -/
def FlagInv (s : State) : Prop :=
  (s.fault = false → s.faultCause = 0) ∧ (s.fault = true → ∃ c, s.faultCause = faultCode c) ∧
  (s.status = .outOfRange → s.strict = true) ∧ (s.done = true → s.slot = .idle)

/-! ### The reference Device's invariant (20_memory.md R66 to R71) -/

/-- The registers are in canonical form, the counter fits the phase, a write frame has an even address, and the phase is
Off while CE is 0. -/
def RefDevice.Inv (r : RefDevice) (ce : Bool) : Prop :=
  Memory.wf r.reg ∧ (ce = false → r.phase = .off) ∧
  (r.phase = .addr → r.clocks < 8) ∧
  (r.phase = .readData → 8 ≤ r.clocks ∧ r.clocks ≤ 16 ∧ r.addrShift.getLsbD 0 = true) ∧
  (r.phase = .writeData → 8 ≤ r.clocks ∧ r.clocks ≤ 16 ∧ r.addrShift.getLsbD 0 = false)

/-- The register file after a write frame at an even address on the reference Device: stored if the address is the
write-protect register's or protection is off, else unchanged (20_memory.md R70). -/
def Memory.guarded (m : Memory) (a v : Byte) : Memory :=
  if a = 0x8E ∨ Memory.read m 0x8E = 0x00 then Memory.write m (regIndex a) v else m

/-- The Device's invariant: any Device whose registers are represented keeps them in canonical form. -/
def DeviceInv (s : State) : Prop :=
  match s.device with
  | .unspecified _ => True
  | .reference r => r.Inv s.ceQ
  | .unpowered r => Memory.wf r.reg

/-! ### Counts (70_reset_and_hazards.md R245) -/

/-- No check refuses the instruction (60_exceptions.md R206): its opcode and its field code are not reserved, and ENC's
operand is at most 99. -/
def passesChecks : Instr → Prop
  | .reserved00 => False
  | .reserved10to1F _ => False
  | .enc n => n.toNat ≤ 99
  | .clamp field _ => field.toNat ≤ 5
  | .wrap field _ => field.toNat ≤ 5
  | .getf field => field.toNat ≤ 5
  | _ => True

/-- The wire actions of an instruction that no check refuses (70_reset_and_hazards.md R245); a bare frame is 50 actions
(41_transport.md R129). -/
def actionCount : Instr → Nat
  | .wbyte _ => 24
  | .rbyte => 24
  | .rreg _ => 50
  | .wreg _ _ => 50
  | .gwrite _ _ => 150
  | .enc _ => 0
  | .dec _ => 0
  | .clamp _ _ => 0
  | .wrap _ _ => 0
  | .getf _ => 50
  | .setymd _ _ _ => 450
  | .sethms _ _ _ => 450
  | .setdt _ _ _ _ _ _ _ => 900
  | .start => 200
  | .pause => 200
  | .reserved00 => 0
  | .reserved10to1F _ => 0
  | _ => 50

/-- The steps a continuation still takes. -/
def Cont.steps (k : Cont) : Nat :=
  match k.after with
  | .writeBack _ => k.prims.length + 150
  | .finish => k.prims.length
  | .returnByte => k.prims.length
  | .readValue _ => k.prims.length
  | .endWriteFrame => k.prims.length
  | .endReadFrame => k.prims.length

/-- The continuation is a bare frame's, which is no command and pulses no `done` (assumption log 12). -/
def Cont.bare (k : Cont) : Bool :=
  match k.after with
  | .endWriteFrame => true
  | .endReadFrame => true
  | .finish => false
  | .returnByte => false
  | .readValue _ => false
  | .writeBack _ => false

end Sys2Proof.Machine
end

