-- ==== Sys2Proof/Certificates/Slice0/Obligations.lean ====
section
/-!
DEFINITION. The statements for the provers. Each docstring names the rules of spec/ it formalises, or the entry of the
assumption log for a clause that is the model's choice.

A statement about a command runs it from the step that accepts it (30_encoding.md R91) through one step an action, with
nothing presented meanwhile, as the Host must (70_reset_and_hazards.md R232); that the port inputs stand in a queue which
each step takes one entry of is assumption log 14.
-/

open Sys2Proof Sys2Proof.Machine

/-! ### Encoding -/

/-- Decoding the raw word of a well-formed instruction gives the instruction, with every operand at every value
(30_encoding.md R80 to R83, R92). -/
def Obligations.DecodeEncodeRoundTrip : Prop := ∀ i : Instr, i.wf = true → decode (encode i) = i

/-- The bytes of a well-formed instruction decode to it and leave what follows. Frames at addresses below 0x20 have no
spelling in bytes: the byte layout is the model's (assumption log 13). -/
def Obligations.BytesRoundTrip : Prop :=
  ∀ (i : Instr) (rest : List Byte), i.wf = true → (∀ addr data, encode i = .frame addr data → 0x20 ≤ addr.toNat) →
    decodeBytes (encodeBytes i ++ rest) = .ok (i, rest)

/-- Every raw word decodes to a well-formed instruction, and encoding that instruction gives a word that decodes to it
(30_encoding.md R88, R92). -/
def Obligations.DecodedIsWellFormed : Prop :=
  ∀ r : Request, (decode r).wf = true ∧ decode (encode (decode r)) = decode r

/-- Opcode 0x00 and the opcodes 0x10 to 0x1F, and no others, decode to the reserved instructions, and the opcode alone
tells the command (30_encoding.md R84, R88). -/
def Obligations.ReservedOpcodesAreExactly : Prop :=
  ∀ c : CmdWord,
    (c.op = 0x00 ↔ decodeCommand c = .reserved00) ∧
    (0x10 ≤ c.op.toNat ↔ ∃ low, decodeCommand c = .reserved10to1F low) ∧
    (∀ low, decodeCommand c = .reserved10to1F low → c.op.toNat = 0x10 + low.toNat)

/-- Words written out from the encodings of 95_test_vectors.md sections 2.1 and 3 (P1 to P4) and 30_encoding.md R82, R92
decode to the commands and frames they stand for. -/
def Obligations.SpecWordsDecode : Prop :=
  decode (.command { op := 0x0B, a0 := 0x07E8, a1 := 0x0002, a2 := 0x001D }) = .setymd 2024 2 29 ∧
  decode (.command { op := 0x0C, a0 := 0x0017, a1 := 0x003B, a2 := 0x003B }) = .sethms 23 59 59 ∧
  decode (.command { op := 0x0A, a0 := 0x0005 }) = .getf 5 ∧
  decode (.command { op := 0x0A, a0 := 0x0008 }) = .getf 0 ∧
  decode (.command { op := 0x01, a0 := 0x1234 }) = .wbyte 0x34 ∧
  decode (.command { op := 0x09, a0 := 0x0004, a1 := 0x000D }) = .wrap 4 13 ∧
  decode (.command { op := 0x04, a0 := 0x008E, a1 := 0x0000 }) = .wreg 0x8E 0x00 ∧
  decode (.command { op := 0x1F }) = .reserved10to1F 0xF ∧
  decode (.frame 0x8C 0x24) = .frameWrYear 0x24 ∧
  decode (.frame 0x81 0x00) = .frameRdSecond

/-- The field codes (30_encoding.md R83). -/
def Obligations.FieldCodesAreRegisterOrder : Prop :=
  fieldOfCode 0 = some .second ∧ fieldOfCode 1 = some .minute ∧ fieldOfCode 2 = some .hour ∧
  fieldOfCode 3 = some .day ∧ fieldOfCode 4 = some .month ∧ fieldOfCode 5 = some .year ∧
  fieldOfCode 6 = none ∧ fieldOfCode 7 = none

/-- The register map and the addresses of the calendar fields (20_memory.md R47, R49). -/
def Obligations.RegisterMapIsBitExact : Prop :=
  (mapOrder.map Reg.waddr = [0x80, 0x82, 0x84, 0x86, 0x88, 0x8A, 0x8C, 0x8E, 0x90, 0xC0]) ∧
  (∀ r : Reg, r.raddr = r.waddr + 1) ∧
  waddr .second = 0x80 ∧ waddr .minute = 0x82 ∧ waddr .hour = 0x84 ∧ waddr .day = 0x86 ∧ waddr .month = 0x88 ∧
  waddr .year = 0x8C ∧ (∀ f : Field, raddr f = waddr f + 1)

/-- The read policy and the write moduli, field by field (43_fieldcodec.md R151 to R153, R156, R157). -/
def Obligations.ReadRangesAndWriteModuli : Prop :=
  ∀ x : Nat,
    clampRead .second x = min (max x 0) 59 ∧ clampRead .minute x = min (max x 0) 59 ∧
    clampRead .hour x = min (max x 0) 23 ∧ clampRead .day x = min (max x 1) 31 ∧
    clampRead .month x = min (max x 1) 12 ∧ clampRead .year x = 2000 + min x 99 ∧
    wrapField .second x = x % 60 ∧ wrapField .minute x = x % 60 ∧ wrapField .hour x = x % 24 ∧
    wrapField .day x = x % 32 ∧ wrapField .month x = x % 13 ∧ wrapField .year x = x % 100

/-! ### The step, reset and binding -/

/-- A step runs the instruction the presented word decodes to; with nothing presented it is the engine's advance with
`done` cleared; a word of the opcode table placed by `withFetchWord` runs in the very next step (30_encoding.md R91). The
queue of inputs and the layout of a table word are the model's (assumption log 13, 14). -/
def Obligations.StepRunsThePresentedInstruction : Prop :=
  (∀ (s : State) (r : Request) (rest : List PortInput), s.inputs = .present r :: rest →
    step s = exec (decode r) { s with inputs := rest }) ∧
  (∀ s : State, s.inputs = [] → step s = .next (quietStep s)) ∧
  (∀ (s : State) (rest : List PortInput), s.inputs = .quiet :: rest →
    step s = .next (quietStep { s with inputs := rest })) ∧
  (∀ (s : State) (nbits w : Nat) (i : Instr), decodeTableWord nbits w = some i →
    step (s.withFetchWord nbits w) = exec i s)

/-- The values of 10_state.md R42 that the spec gives stand in the reset state: the lines, `STRICT`, `slot`, `busy`,
`result`, `status`, `done`, `fault` and `fault_cause`. The temporaries' values, the trace, the Device and the inputs of
the reset state are the model's (assumption log 4, 10, 14, 15). -/
def Obligations.ResetHoldsTheSpecValues : Prop :=
  State.reset.clkQ = false ∧ State.reset.ceQ = false ∧ State.reset.dioQ = none ∧ State.reset.strict = false ∧
  State.reset.slot = .idle ∧ State.reset.busy = false ∧ State.reset.result = none ∧ State.reset.status = .ok ∧
  State.reset.done = false ∧ State.reset.fault = false ∧ State.reset.faultCause = 0

/-- `bind(STRICT)` from any state, a faulted or a busy one too: two wire actions, CLK low and CE low, in that order and one
a step, and then the engine state of 70_reset_and_hazards.md R226; from a wire at rest no register of the Device
changes (R228). That it takes two steps, with the port quiet in the second, is assumption log 8; that it abandons a command
in flight is log 9; that it appends its two events to the trace and clears nothing of it is log 10; what a frame it cuts short after all its
clocks does is log 26, and the last clause leaves it out. -/
def Obligations.BindingResetsTheEngine : Prop :=
  ∀ (s : State) (strict : Bool) (rest : List PortInput), s.inputs = .bind strict :: .quiet :: rest →
    ∃ u, Runs 2 s u ∧ u.trace = s.trace ++ [.set .clk false, .set .ce false] ∧
      u.clkQ = false ∧ u.ceQ = false ∧ u.dioQ = none ∧ u.strict = strict ∧ u.slot = .idle ∧ u.busy = false ∧
      u.done = false ∧ u.fault = false ∧ u.faultCause = 0 ∧ u.status = .ok ∧ u.result = none ∧ u.inputs = rest ∧
      (s.wireAtRest → u.device.registers = s.device.registers)

/-! ### Faults -/

/-- A reserved opcode raises `ILLEGAL_COMMAND` with the opcode: `fault` and `fault_cause` 1, the event, and nothing else
(30_encoding.md R84, 60_exceptions.md R207, R209). -/
def Obligations.ReservedOpcodesFault : Prop :=
  ∀ s : State, s.ready →
    exec .reserved00 s = .next { s with
      done := false, fault := true, faultCause := 1, trace := s.trace ++ [.fault .illegalCommand 0x00] } ∧
    ∀ low : BitVec 4, exec (.reserved10to1F low) s = .next { s with
      done := false, fault := true, faultCause := 1,
      trace := s.trace ++ [.fault .illegalCommand (BitVec.ofNat 16 (0x10 + low.toNat))] }

/-- Field codes 6 and 7 raise `ILLEGAL_FIELD` with the code in CLAMP, WRAP and GETF, before any wire action
(30_encoding.md R85, 60_exceptions.md R207, R210). -/
def Obligations.ReservedFieldCodesFault : Prop :=
  ∀ (s : State) (code : BitVec 3) (x : Word), s.ready → 6 ≤ code.toNat →
    let faulted : State := { s with
      done := false, fault := true, faultCause := 2,
      trace := s.trace ++ [.fault .illegalField (BitVec.ofNat 16 code.toNat)] }
    exec (.clamp code x) s = .next faulted ∧ exec (.wrap code x) s = .next faulted ∧
    exec (.getf code) s = .next faulted

/-- ENC above 99 raises `CODEC_DOMAIN` with the operand (60_exceptions.md R207, R211). -/
def Obligations.EncOutsideItsDomainFaults : Prop :=
  ∀ (s : State) (n : Word), s.ready → 99 < n.toNat →
    exec (.enc n) s = .next { s with
      done := false, fault := true, faultCause := 3, trace := s.trace ++ [.fault .codecDomain n] }

/-- Any instruction presented while the engine is busy and not faulted raises `OVERLAP` with its opcode and is not executed,
and the command in flight makes exactly the step it makes when nothing is presented (60_exceptions.md R212). That the
event stands before the step's wire action is assumption log 7; the info of a bare frame is log 12. -/
def Obligations.OverlapFaultsAndTheCommandGoesOn : Prop :=
  ∀ (i : Instr) (s : State) (cmd : Instr) (k : Cont), s.slot = .busy cmd k → s.fault = false →
    ∃ (q : State) (es : List Event), step { s with inputs := [] } = .next q ∧ q.trace = s.trace ++ es ∧
      exec i s = .next { q with
        fault := true, faultCause := 4, inputs := s.inputs,
        trace := s.trace ++ [.fault .overlap (encode i).overlapInfo] ++ es }

/-- A faulted idle engine accepts nothing: whatever is presented, only `done` is cleared (60_exceptions.md R217, which speaks
of commands; that it ignores a bare frame too is assumption log 12). -/
def Obligations.FaultedEngineIgnoresCommands : Prop :=
  ∀ (i : Instr) (s : State), s.slot = .idle → s.fault = true → exec i s = .next { s with done := false }

/-- Once raised, `fault` and `fault_cause` stay as they are in every step but the one that ends a binding (10_state.md R36,
R37; 60_exceptions.md R217). That the first step of a binding keeps them is assumption log 8; that a bare frame changes
neither is log 12. -/
def Obligations.FaultIsStickyUntilBinding : Prop :=
  ∀ s t : State, s.fault = true → (∀ strict, s.slot ≠ .binding strict) → step s = .next t →
    t.fault = true ∧ t.faultCause = s.faultCause

/-- A fault is raised only in a step that presents a word. When the engine is idle it is recorded before any wire action,
with `result`, `status`, the lines and the Device unchanged and no `done` (60_exceptions.md R207, R208; that an accepted bare
frame raises none is assumption log 12). -/
def Obligations.FaultsAriseAtAcceptanceOnly : Prop :=
  ∀ s t : State, s.fault = false → step s = .next t → t.fault = true →
    ∃ r rest, s.inputs = .present r :: rest ∧
      (s.slot = .idle → ∃ c info, t.trace = s.trace ++ [.fault c info] ∧ t.faultCause = faultCode c ∧
        t.slot = .idle ∧ t.done = false ∧ t.result = s.result ∧ t.status = s.status ∧ t.clkQ = s.clkQ ∧
        t.ceQ = s.ceQ ∧ t.dioQ = s.dioQ ∧ t.device = s.device)

/-! ### Rules of every step -/

/-- A step appends to the trace, never more than one wire action, and exactly one while a command has primitives left
(00_scope.md R7, R16; 10_state.md R40; that a binding only appends is assumption log 10). -/
def Obligations.OneWireActionPerStep : Prop :=
  ∀ s t : State, step s = .next t →
    ∃ es, t.trace = s.trace ++ es ∧ (es.filter Event.isWire).length ≤ 1 ∧
      ∀ cmd k, s.slot = .busy cmd k → k.prims ≠ [] → (es.filter Event.isWire).length = 1

/-- `STRICT` is written by no step but the one that ends a binding (10_state.md R27; that it is the second step of a binding
is assumption log 8). -/
def Obligations.StrictIsConstantBetweenBindings : Prop :=
  ∀ s t : State, (∀ strict, s.slot ≠ .binding strict) → step s = .next t → t.strict = s.strict

/-- Every step answers a next state: a faulted state is quiescent and never final (60_exceptions.md R217). -/
def Obligations.EveryStepAnswersANextState : Prop := ∀ s : State, ∃ t, step s = .next t

/-- Every command in flight completes in the steps its continuation holds, if the port is quiet: idle, and `done` at 1
unless it is a bare frame (20_memory.md R61, 30_encoding.md R91; assumption log 12 for the frames). -/
def Obligations.EveryCommandCompletes : Prop :=
  ∀ (s : State) (cmd : Instr) (k : Cont), s.slot = .busy cmd k → k.prims ≠ [] → s.quietFor k.steps →
    ∃ u, Runs k.steps s u ∧ u.slot = .idle ∧ u.done = !k.bare

/-- An accepted instruction is busy for exactly its count of wire actions (70_reset_and_hazards.md R245; for a bare frame
41_transport.md R129 and assumption log 12). -/
def Obligations.ActionCountsAreExact : Prop :=
  ∀ (i : Instr) (s : State), s.ready → passesChecks i → s.quietFor (actionCount i) →
    (∃ u, Performs i (actionCount i) s u ∧ u.slot = .idle ∧ u.fault = false) ∧
    ∀ m < actionCount i, ∃ w, Performs i m s w ∧ w.busy = true

/-! ### BitLink -/

/-- WBYTE (40_bitlink.md R107, R108): 24 actions that put the byte on DATA, least-significant bit first; CLK ends low and
DATA at bit 7; CE, `result` and everything else of the engine as before. -/
def Obligations.WbyteShiftsOutItsByte : Prop :=
  ∀ (value : Byte) (s : State), s.ready → s.quietFor 24 →
    ∃ u, Performs (.wbyte value) 24 s u ∧ Completed 24 s u ∧ u.status = .ok ∧ u.result = s.result ∧
      u.clkQ = false ∧ u.ceQ = s.ceQ ∧ u.dioQ = some (value.getLsbD 7) ∧ u.trace = s.trace ++ byteWritten value

/-- RBYTE (40_bitlink.md R110, R111): 24 actions, and `result` is the byte of the eight sampled bits, least-significant bit
first; CLK ends low; CE and DATA as before. -/
def Obligations.RbyteReturnsTheSampledByte : Prop :=
  ∀ s : State, s.ready → s.quietFor 24 →
    ∃ u v, Performs .rbyte 24 s u ∧ Completed 24 s u ∧ u.status = .ok ∧ u.result = some (BitVec.ofNat 16 v.toNat) ∧
      u.clkQ = false ∧ u.ceQ = s.ceQ ∧ u.dioQ = s.dioQ ∧ u.trace = s.trace ++ byteRead v

/-- Whatever eight levels a Device presents, RBYTE and RREG return the byte of them: every byte is a possible result
(00_scope.md R8, 10_state.md R26, 40_bitlink.md R110). -/
def Obligations.AnyByteCanBeRead : Prop :=
  ∀ (v : Byte) (levels : List Bool) (s : State), s.ready → s.device = .unspecified (wireOrder v ++ levels) →
    (s.quietFor 24 → ∃ u, Performs .rbyte 24 s u ∧ u.result = some (BitVec.ofNat 16 v.toNat) ∧
      u.device = .unspecified levels) ∧
    (∀ addr : Byte, s.quietFor 50 → ∃ u, Performs (.rreg addr) 50 s u ∧
      u.result = some (BitVec.ofNat 16 v.toNat) ∧ u.device = .unspecified levels)

/-- WBYTE and RBYTE outside a frame reach no register of the Device (40_bitlink.md R112, 20_memory.md R71). -/
def Obligations.BitTransfersReachNoRegister : Prop :=
  ∀ (value : Byte) (s : State), s.ready → s.wireAtRest → s.quietFor 24 →
    (∃ u, Performs (.wbyte value) 24 s u ∧ u.device.registers = s.device.registers) ∧
    (∃ u, Performs .rbyte 24 s u ∧ u.device.registers = s.device.registers)

/-! ### RegisterTransport and WriteGuard -/

/-- RREG (41_transport.md R121, R122), any address (R123): the 50 actions of a read frame, and `result` is the byte of the
eight samples; CLK and CE end low and DATA at bit 7 of the address. -/
def Obligations.RregReadsOneFrame : Prop :=
  ∀ (addr : Byte) (s : State), s.ready → s.quietFor 50 →
    ∃ u v, Performs (.rreg addr) 50 s u ∧ Completed 50 s u ∧ u.status = .ok ∧
      u.result = some (BitVec.ofNat 16 v.toNat) ∧ u.clkQ = false ∧ u.ceQ = false ∧
      u.dioQ = some (addr.getLsbD 7) ∧ u.trace = s.trace ++ frameRead addr v

/-- WREG (41_transport.md R126, R127), any address (R123): the 50 actions of a write frame; CLK and CE end low and DATA at
bit 7 of the value; `result` as before. -/
def Obligations.WregWritesOneFrame : Prop :=
  ∀ (addr value : Byte) (s : State), s.ready → s.quietFor 50 →
    ∃ u, Performs (.wreg addr value) 50 s u ∧ Completed 50 s u ∧ u.status = .ok ∧ u.result = s.result ∧
      u.clkQ = false ∧ u.ceQ = false ∧ u.dioQ = some (value.getLsbD 7) ∧ u.trace = s.trace ++ frameWritten addr value

/-- GWRITE (42_writeguard.md R136, R137, R139): 0x00 to 0x8E, the write, 0x00 to 0x8E again, 150 actions; CLK, CE and DATA
end low; `result` as before. -/
def Obligations.GwriteBracketsTheWrite : Prop :=
  ∀ (addr value : Byte) (s : State), s.ready → s.quietFor 150 →
    ∃ u, Performs (.gwrite addr value) 150 s u ∧ Completed 150 s u ∧ u.status = .ok ∧ u.result = s.result ∧
      u.clkQ = false ∧ u.ceQ = false ∧ u.dioQ = some false ∧
      u.trace = s.trace ++ (frameWritten 0x8E 0x00 ++ frameWritten addr value ++ frameWritten 0x8E 0x00)

/-- The bare write frames, at each register of the map and at any other even address: the 50 actions of 30_encoding.md R79,
CLK and CE low and DATA at bit 7 of the data byte after; nothing of a command's is written (assumption log 12). -/
def Obligations.BareWriteFramesAreR79 : Prop :=
  ∀ (data : Byte) (s : State), s.ready → s.quietFor 50 →
    (∀ reg : Reg, ∃ u, Performs (writeFrameAt reg data) 50 s u ∧ FrameOver 50 s u ∧ u.clkQ = false ∧ u.ceQ = false ∧
      u.dioQ = some (data.getLsbD 7) ∧ u.trace = s.trace ++ frameWritten reg.waddr data) ∧
    (∀ addr : Byte, ∃ u, Performs (.frameWriteAny addr data) 50 s u ∧ FrameOver 50 s u ∧ u.clkQ = false ∧
      u.ceQ = false ∧ u.dioQ = some (data.getLsbD 7) ∧ u.trace = s.trace ++ frameWritten addr data)

/-- The bare read frames, at each register of the map and at any other odd address: the 50 actions of 30_encoding.md R78,
CLK and CE low and DATA at bit 7 of the address after, the byte of the samples handed on as `raw`; nothing of a
command's is written (assumption log 12). -/
def Obligations.BareReadFramesAreR78 : Prop :=
  ∀ s : State, s.ready → s.quietFor 50 →
    (∀ reg : Reg, ∃ u v, Performs (readFrameAt reg) 50 s u ∧ FrameOver 50 s u ∧ u.tmp.raw = v ∧ u.clkQ = false ∧
      u.ceQ = false ∧ u.dioQ = some ((reg.waddr + 1).getLsbD 7) ∧ u.trace = s.trace ++ frameRead (reg.waddr + 1) v) ∧
    (∀ addr : Byte, ∃ u v, Performs (.frameReadAny addr) 50 s u ∧ FrameOver 50 s u ∧ u.tmp.raw = v ∧
      u.clkQ = false ∧ u.ceQ = false ∧ u.dioQ = some (addr.getLsbD 7) ∧ u.trace = s.trace ++ frameRead addr v)

/-! ### FieldCodec -/

/-- ENC up to 99 (43_fieldcodec.md R146, R149): `result` is the packed byte, `done` in the step of acceptance, no wire
action, everything else as before. -/
def Obligations.EncPacksTwoDigits : Prop :=
  ∀ (n : Word) (s : State), s.ready → n.toNat ≤ 99 →
    exec (.enc n) s = .next { s with
      done := true, status := .ok, result := some (BitVec.ofNat 16 (n.toNat / 10 * 16 + n.toNat % 10)) }

/-- DEC of any byte (43_fieldcodec.md R147, R150): tens times ten plus units, whatever the nibbles. -/
def Obligations.DecUnpacksAnyByte : Prop :=
  ∀ (byte : Byte) (s : State), s.ready →
    exec (.dec byte) s = .next { s with
      done := true, status := .ok, result := some (BitVec.ofNat 16 (byte.toNat / 16 * 10 + byte.toNat % 16)) }

/-- CLAMP (43_fieldcodec.md R155, R158), in both modes: out of range in strict mode it reports `OUT_OF_RANGE` and the
unclamped value, otherwise it clamps. -/
def Obligations.ClampAppliesTheReadPolicy : Prop :=
  ∀ (f : Field) (d : Word) (s : State), s.ready →
    exec (.clamp (codeOfField f) d) s = .next (if s.strict = true ∧ ¬(fieldLo f ≤ d.toNat ∧ d.toNat ≤ fieldHi f)
      then { s with done := true, status := .outOfRange, result := some d }
      else { s with done := true, status := .ok, result := some (BitVec.ofNat 16 (clampRead f d.toNat)) })

/-- WRAP (43_fieldcodec.md R157, R159), in both modes: the operand modulo the field's bound. -/
def Obligations.WrapReducesModuloTheBound : Prop :=
  ∀ (f : Field) (x : Word) (s : State), s.ready →
    exec (.wrap (codeOfField f) x) s = .next { s with
      done := true, status := .ok, result := some (BitVec.ofNat 16 (x.toNat % fieldModulus f)) }

/-- The round trips of 43_fieldcodec.md R161. -/
def Obligations.PackedRoundTrips : Prop :=
  (∀ b : Byte, b.toNat / 16 ≤ 9 → b.toNat % 16 ≤ 9 → decimalToPacked (packedToDecimal b) = b) ∧
  (∀ n : Nat, n ≤ 99 → packedToDecimal (decimalToPacked n) = n)

/-- The read bound law (43_fieldcodec.md R154). -/
def Obligations.ClampedReadsStayInRange : Prop :=
  ∀ (f : Field) (d : Nat), (f ≠ .year → fieldLo f ≤ clampRead f d ∧ clampRead f d ≤ fieldHi f) ∧
    2000 ≤ clampRead .year d ∧ clampRead .year d ≤ 2099

/-- The data byte of a calendar write is the wrapped operand, tens in the high nibble and units in the low one, and the
seconds byte has bit 7 clear, whatever the operand (30_encoding.md R87, 44_facade.md R186). R87's remark that bit 7 is 0 in
every field is not so for a year of 80 to 99 and is not stated (assumption log 5). -/
def Obligations.CalendarBytesClearTheHaltBit : Prop :=
  ∀ (f : Field) (x : Word), (fieldByte f x).toNat = x.toNat % fieldModulus f / 10 * 16 + x.toNat % fieldModulus f % 10 ∧
    (f = .second → (fieldByte f x).getLsbD 7 = false)

/-! ### ClockFacade -/

/-- GETF (44_facade.md R176, R178, R179): one read frame at `waddr(f) + 1`, the halt bit masked in the second field only,
then the decode and the read policy in both modes. -/
def Obligations.GetfReadsDecodesAndClamps : Prop :=
  ∀ (f : Field) (s : State), s.ready → s.quietFor 50 →
    ∃ u v, Performs (.getf (codeOfField f)) 50 s u ∧ Completed 50 s u ∧
      u.trace = s.trace ++ frameRead (waddr f + 1) v ∧ u.clkQ = false ∧ u.ceQ = false ∧
      u.dioQ = some ((waddr f + 1).getLsbD 7) ∧
      (let d := packedToDecimal (if f = .second then v &&& 0x7F else v)
       if s.strict = true ∧ ¬(fieldLo f ≤ d ∧ d ≤ fieldHi f)
       then u.status = .outOfRange ∧ u.result = some (BitVec.ofNat 16 d)
       else u.status = .ok ∧ u.result = some (BitVec.ofNat 16 (clampRead f d)))

/-- SETYMD (44_facade.md R180): three guarded writes, year, month, day, of the wrapped and packed operands. -/
def Obligations.SetymdWritesYearMonthDay : Prop :=
  ∀ (year month day : Word) (s : State), s.ready → s.quietFor 450 →
    ∃ u, Performs (.setymd year month day) 450 s u ∧ Completed 450 s u ∧ u.status = .ok ∧ u.result = s.result ∧
      u.clkQ = false ∧ u.ceQ = false ∧ u.dioQ = some false ∧
      u.trace = s.trace ++ (guardWritten 0x8C (decimalToPacked (year.toNat % 100)) ++
        guardWritten 0x88 (decimalToPacked (month.toNat % 13)) ++
        guardWritten 0x86 (decimalToPacked (day.toNat % 32)))

/-- SETHMS (44_facade.md R181): three guarded writes, hour, minute, second, of the wrapped and packed operands. -/
def Obligations.SethmsWritesHourMinuteSecond : Prop :=
  ∀ (hour minute second : Word) (s : State), s.ready → s.quietFor 450 →
    ∃ u, Performs (.sethms hour minute second) 450 s u ∧ Completed 450 s u ∧ u.status = .ok ∧ u.result = s.result ∧
      u.clkQ = false ∧ u.ceQ = false ∧ u.dioQ = some false ∧
      u.trace = s.trace ++ (guardWritten 0x84 (decimalToPacked (hour.toNat % 24)) ++
        guardWritten 0x82 (decimalToPacked (minute.toNat % 60)) ++
        guardWritten 0x80 (decimalToPacked (second.toNat % 60)))

/-- SETDT (44_facade.md R182): it leaves exactly the state that SETYMD and then SETHMS leave, in 900 actions. -/
def Obligations.SetdtIsSetymdThenSethms : Prop :=
  ∀ (year month day weekday hour minute second : Word) (s : State), s.ready → s.quietFor 900 →
    ∃ w u, Performs (.setdt year month day weekday hour minute second) 900 s u ∧ Completed 900 s u ∧
      Performs (.setymd year month day) 450 s w ∧ Performs (.sethms hour minute second) 450 w u

/-- The weekday operand of SETDT changes nothing at all (44_facade.md R183). -/
def Obligations.WeekdayOperandIsIgnored : Prop :=
  ∀ (year month day weekday weekday' hour minute second : Word) (s : State), s.ready → s.quietFor 900 →
    ∃ u, Performs (.setdt year month day weekday hour minute second) 900 s u ∧
      Performs (.setdt year month day weekday' hour minute second) 900 s u

/-- START (44_facade.md R184): a read frame at 0x81, then a guarded write of the raw byte with bit 7 clear to 0x80. -/
def Obligations.StartClearsTheHaltBit : Prop :=
  ∀ s : State, s.ready → s.quietFor 200 →
    ∃ u raw, Performs .start 200 s u ∧ Completed 200 s u ∧ u.status = .ok ∧ u.result = s.result ∧
      u.clkQ = false ∧ u.ceQ = false ∧ u.dioQ = some false ∧
      u.trace = s.trace ++ (frameRead 0x81 raw ++ guardWritten 0x80 (raw &&& 0x7F))

/-- PAUSE (44_facade.md R185): a read frame at 0x81, then a guarded write of the raw byte with bit 7 set to 0x80. -/
def Obligations.PauseSetsTheHaltBit : Prop :=
  ∀ s : State, s.ready → s.quietFor 200 →
    ∃ u raw, Performs .pause 200 s u ∧ Completed 200 s u ∧ u.status = .ok ∧ u.result = s.result ∧
      u.clkQ = false ∧ u.ceQ = false ∧ u.dioQ = some false ∧
      u.trace = s.trace ++ (frameRead 0x81 raw ++ guardWritten 0x80 (raw ||| 0x80))

/-! ### Invariants -/

/-- The three invariants hold at reset. -/
def Obligations.InvariantsHoldAtReset : Prop := WireInv State.reset ∧ FlagInv State.reset ∧ DeviceInv State.reset

/-- Every step keeps the wire invariant: CLK is 0 at every CE transition, DIO changes and is sampled only while CLK is 0, no
frame has more than 16 pulses, and between commands CLK and CE are 0 (10_state.md R43, 70_reset_and_hazards.md R241). A
binding may cut a frame short, so the bound is not an equality (assumption log 9). -/
def Obligations.WireFramingIsKept : Prop := ∀ s t : State, WireInv s → step s = .next t → WireInv t

/-- Every step keeps the flag invariant (10_state.md R34 to R37, 60_exceptions.md R206). -/
def Obligations.FlagInvariantIsKept : Prop := ∀ s t : State, FlagInv s → step s = .next t → FlagInv t

/-- Every step keeps the Device's invariant: the register file keeps its canonical form and the frame phase fits its counter
(20_memory.md R66 to R71; assumption log 16, 17). -/
def Obligations.DeviceInvariantIsKept : Prop := ∀ s t : State, DeviceInv s → step s = .next t → DeviceInv t

/-! ### With the reference Device
Claims about the engine together with the reference Device of 20_memory.md R66 to R72; none is about another Device. How the
model holds that Device is its own choice where the rules are silent: unwritten registers are free bytes (assumption log
16), a read frame counts its clocks (17), the level on DATA while nothing drives it is free (18). -/

/-- On the reference Device WREG, GWRITE and the bare write frames at an even address store their byte where R70 lets them,
and every other register reads as before (20_memory.md R70, 42_writeguard.md R137, R138; assumption log 12, 16, 18). -/
def Obligations.ReferenceWritesStoreOneRegister : Prop :=
  ∀ (addr value : Byte) (s : State) (r : RefDevice), s.ready → s.wireAtRest → s.device = .reference r →
    (addr.getLsbD 0 = false → s.quietFor 50 → ∀ i, i = .wreg addr value ∨ i = .frameWriteAny addr value ∨
        (∃ reg, addr = reg.waddr ∧ i = writeFrameAt reg value) →
      ∃ u r', Performs i 50 s u ∧ u.device = .reference r' ∧
        ∀ b : Nat, Memory.read r'.reg b =
          if b = addr.toNat ∧ (addr = 0x8E ∨ Memory.read r.reg 0x8E = 0x00) then value else Memory.read r.reg b) ∧
    (addr.getLsbD 0 = false → s.quietFor 150 →
      ∃ u r', Performs (.gwrite addr value) 150 s u ∧ u.device = .reference r' ∧
        ∀ b : Nat, Memory.read r'.reg b =
          if b = 0x8E then 0x00 else if b = addr.toNat then value else Memory.read r.reg b)

/-- On the reference Device RREG and the bare read frames at an odd address, and GETF, return the register, and no register
changes (20_memory.md R69, 44_facade.md R178; assumption log 12, 16, 17). -/
def Obligations.ReferenceReadsReturnTheRegister : Prop :=
  ∀ (s : State) (r : RefDevice), s.ready → s.wireAtRest → s.device = .reference r → s.quietFor 50 →
    (∀ addr : Byte, addr.getLsbD 0 = true →
      (∃ u r', Performs (.rreg addr) 50 s u ∧ u.device = .reference r' ∧ r'.reg = r.reg ∧
        u.result = some (BitVec.ofNat 16 (Memory.read r.reg (addr.toNat - 1)).toNat)) ∧
      ∀ i, i = .frameReadAny addr ∨ (∃ reg, addr = reg.waddr + 1 ∧ i = readFrameAt reg) →
        ∃ u r', Performs i 50 s u ∧ u.device = .reference r' ∧ r'.reg = r.reg ∧
          u.tmp.raw = Memory.read r.reg (addr.toNat - 1)) ∧
    (∀ f : Field, ∃ u r', Performs (.getf (codeOfField f)) 50 s u ∧ u.device = .reference r' ∧ r'.reg = r.reg ∧
      (let v := Memory.read r.reg (waddr f).toNat
       let d := packedToDecimal (if f = .second then v &&& 0x7F else v)
       u.result = some (readResult s.strict f d) ∧ u.status = readStatus s.strict f d))

/-- On the reference Device a write command with an odd address changes no register, and a read command with an even
address changes at most the register it names (20_memory.md R72; assumption log 16, 17, 18). -/
def Obligations.WrongDirectionFramesOnReference : Prop :=
  ∀ (addr value : Byte) (s : State) (r : RefDevice), s.ready → s.wireAtRest → s.device = .reference r →
    s.quietFor 50 →
    (addr.getLsbD 0 = true →
      ∃ u r', Performs (.wreg addr value) 50 s u ∧ u.device = .reference r' ∧ r'.reg = r.reg) ∧
    (addr.getLsbD 0 = false →
      ∃ u r' v, Performs (.rreg addr) 50 s u ∧ u.device = .reference r' ∧
        ∀ b : Nat, Memory.read r'.reg b =
          if b = addr.toNat ∧ (addr = 0x8E ∨ Memory.read r.reg 0x8E = 0x00) then v else Memory.read r.reg b)

/-- On the reference Device the set commands store the wrapped, packed operands, leave protection off, and leave every other
register, the weekday's among them, as it was (44_facade.md R180 to R183, 70_reset_and_hazards.md R237, R242; assumption
log 16, 18). -/
def Obligations.ReferenceSetCommandsStore : Prop :=
  ∀ (year month day weekday hour minute second : Word) (s : State) (r : RefDevice),
    s.ready → s.wireAtRest → s.device = .reference r →
    (s.quietFor 450 → ∃ u r', Performs (.setymd year month day) 450 s u ∧ u.device = .reference r' ∧
      ∀ b : Nat, Memory.read r'.reg b =
        if b = 0x8E then 0x00 else if b = 0x8C then fieldByte .year year else if b = 0x88 then fieldByte .month month
        else if b = 0x86 then fieldByte .day day else Memory.read r.reg b) ∧
    (s.quietFor 450 → ∃ u r', Performs (.sethms hour minute second) 450 s u ∧ u.device = .reference r' ∧
      ∀ b : Nat, Memory.read r'.reg b =
        if b = 0x8E then 0x00 else if b = 0x84 then fieldByte .hour hour
        else if b = 0x82 then fieldByte .minute minute else if b = 0x80 then fieldByte .second second
        else Memory.read r.reg b) ∧
    (s.quietFor 900 → ∃ u r', Performs (.setdt year month day weekday hour minute second) 900 s u ∧
      u.device = .reference r' ∧
      ∀ b : Nat, Memory.read r'.reg b =
        if b = 0x8E then 0x00 else if b = 0x8C then fieldByte .year year else if b = 0x88 then fieldByte .month month
        else if b = 0x86 then fieldByte .day day else if b = 0x84 then fieldByte .hour hour
        else if b = 0x82 then fieldByte .minute minute else if b = 0x80 then fieldByte .second second
        else Memory.read r.reg b)

/-- The set commands are not atomic: after 300 actions of SETYMD the reference Device holds the new year and month and the
old day, and the command is still in flight (20_memory.md R59, 44_facade.md R187; assumption log 16, 18). -/
def Obligations.SetymdIsNotAtomic : Prop :=
  ∀ (year month day : Word) (s : State) (r : RefDevice), s.ready → s.wireAtRest → s.device = .reference r →
    s.quietFor 300 →
    ∃ u r', Performs (.setymd year month day) 300 s u ∧ u.busy = true ∧ u.device = .reference r' ∧
      Memory.read r'.reg 0x8C = fieldByte .year year ∧ Memory.read r'.reg 0x88 = fieldByte .month month ∧
      Memory.read r'.reg 0x86 = Memory.read r.reg 0x86

/-- The write-then-read law (43_fieldcodec.md R162): on the reference Device, whatever it held and whether it was protected,
after SETDT every field reads back, with `STRICT` false, as its operand wrapped and then clamped (assumption log 16 to
18). -/
def Obligations.SetThenGetReadsBackWrapped : Prop :=
  ∀ (year month day weekday hour minute second : Word) (s : State) (r : RefDevice), s.ready → s.wireAtRest →
    s.device = .reference r → s.strict = false → s.quietFor 950 →
    ∃ u, Performs (.setdt year month day weekday hour minute second) 900 s u ∧
      ∀ f : Field, ∃ w, Performs (.getf (codeOfField f)) 50 u w ∧ w.status = .ok ∧
        w.result = some (BitVec.ofNat 16 (clampRead f
          ((match f with
            | .second => second
            | .minute => minute
            | .hour => hour
            | .day => day
            | .month => month
            | .year => year).toNat % fieldModulus f)))

/-- PAUSE, PAUSE again and START on the reference Device: the halt bit is set, stays set, and is cleared with bits 6:0 as
they were; protection is left off and no other register changes; GETF second returns the same before and after PAUSE
(44_facade.md R179, R184, R185; 20_memory.md R70; assumption log 16 to 18). -/
def Obligations.PauseAndStartOnReference : Prop :=
  ∀ (s : State) (r : RefDevice), s.ready → s.wireAtRest → s.device = .reference r → s.quietFor 600 →
    let old := Memory.read r.reg 0x80
    ∃ u₁ u₂ u₃ r₁ r₂ r₃, Performs .pause 200 s u₁ ∧ Performs .pause 200 u₁ u₂ ∧ Performs .start 200 u₂ u₃ ∧
      u₁.device = .reference r₁ ∧ u₂.device = .reference r₂ ∧ u₃.device = .reference r₃ ∧
      (∀ b : Nat, Memory.read r₁.reg b = if b = 0x8E then 0x00 else if b = 0x80 then old ||| 0x80 else
        Memory.read r.reg b) ∧
      (∀ b : Nat, Memory.read r₂.reg b = Memory.read r₁.reg b) ∧
      (∀ b : Nat, Memory.read r₃.reg b = if b = 0x8E then 0x00 else if b = 0x80 then old &&& 0x7F else
        Memory.read r.reg b) ∧
      ∃ x y, Performs (.getf (codeOfField .second)) 50 s x ∧ Performs (.getf (codeOfField .second)) 50 u₁ y ∧
        x.result = y.result ∧ x.status = y.status

/-- An unpowered Device reads as all ones and commits nothing; GETF with `STRICT` false then gives the clamped extremes of
each field (20_memory.md R73; 95_test_vectors.md P5). That it keeps its registers and tracks nothing is assumption log 6. -/
def Obligations.UnpoweredDeviceReadsAllOnes : Prop :=
  ∀ (addr value : Byte) (s : State) (r : RefDevice), s.ready → s.device = .unpowered r → s.quietFor 150 →
    (∃ u, Performs (.rreg addr) 50 s u ∧ u.result = some 0x00FF ∧ u.device = .unpowered r) ∧
    (∃ u, Performs (.gwrite addr value) 150 s u ∧ u.status = .ok ∧ u.device = .unpowered r) ∧
    (s.strict = false → ∀ f : Field, ∃ u, Performs (.getf (codeOfField f)) 50 s u ∧ u.status = .ok ∧
      u.device = .unpowered r ∧
      u.result = some (match f with
        | .second => 59
        | .minute => 59
        | .hour => 23
        | .day => 31
        | .month => 12
        | .year => 2099))

/-! ### The port during a binding -/

/-- While a binding is under way `busy` is 1, so an instruction presented then is not executed and, unless a fault stands,
`OVERLAP` is recorded with its opcode (10_state.md R30, 30_encoding.md R91, 60_exceptions.md R212); the binding ends as it
does with nothing presented. That the binding is under way between its two actions, and that its end, in the same step,
clears the fault just raised, so that the trace alone shows it, is assumption log 8; that the event stands before the wire
action is log 7; what a bare frame records is log 12. -/
def Obligations.OverlapIsRecordedDuringABinding : Prop :=
  ∀ (i : Instr) (s : State) (strict : Bool), s.slot = .binding strict →
    s.busy = true ∧
    ∃ q : State, step { s with inputs := [] } = .next q ∧ q.trace = s.trace ++ [.set .ce false] ∧ q.slot = .idle ∧
      q.fault = false ∧ q.faultCause = 0 ∧
      exec i s = .next { q with
        inputs := s.inputs,
        trace := s.trace ++ (if s.fault then [] else [.fault .overlap (encode i).overlapInfo]) ++ [.set .ce false] }
end

