-- ==== Sys2Proof/Laws/State.lean ====
section
/-!
SUPPORT. One lemma per field of `State` and per update, each true by unfolding, so that no later proof unfolds a record
update.
-/

namespace Sys2Proof.Machine

/-! ### `record` -/

@[simp] theorem record_clkQ (e : Event) (s : State) : (record e s).clkQ = s.clkQ := rfl
@[simp] theorem record_ceQ (e : Event) (s : State) : (record e s).ceQ = s.ceQ := rfl
@[simp] theorem record_dioQ (e : Event) (s : State) : (record e s).dioQ = s.dioQ := rfl
@[simp] theorem record_strict (e : Event) (s : State) : (record e s).strict = s.strict := rfl
@[simp] theorem record_slot (e : Event) (s : State) : (record e s).slot = s.slot := rfl
@[simp] theorem record_tmp (e : Event) (s : State) : (record e s).tmp = s.tmp := rfl
@[simp] theorem record_result (e : Event) (s : State) : (record e s).result = s.result := rfl
@[simp] theorem record_status (e : Event) (s : State) : (record e s).status = s.status := rfl
@[simp] theorem record_done (e : Event) (s : State) : (record e s).done = s.done := rfl
@[simp] theorem record_fault (e : Event) (s : State) : (record e s).fault = s.fault := rfl
@[simp] theorem record_faultCause (e : Event) (s : State) : (record e s).faultCause = s.faultCause := rfl
@[simp] theorem record_trace (e : Event) (s : State) : (record e s).trace = s.trace ++ [e] := rfl
@[simp] theorem record_device (e : Event) (s : State) : (record e s).device = s.device := rfl
@[simp] theorem record_inputs (e : Event) (s : State) : (record e s).inputs = s.inputs := rfl
@[simp] theorem record_draws (e : Event) (s : State) : (record e s).draws = s.draws := rfl

/-! ### `setClk` -/

@[simp] theorem setClk_clkQ (level : Bool) (s : State) : (setClk level s).clkQ = level := rfl
@[simp] theorem setClk_ceQ (level : Bool) (s : State) : (setClk level s).ceQ = s.ceQ := rfl
@[simp] theorem setClk_dioQ (level : Bool) (s : State) : (setClk level s).dioQ = s.dioQ := rfl
@[simp] theorem setClk_strict (level : Bool) (s : State) : (setClk level s).strict = s.strict := rfl
@[simp] theorem setClk_slot (level : Bool) (s : State) : (setClk level s).slot = s.slot := rfl
@[simp] theorem setClk_tmp (level : Bool) (s : State) : (setClk level s).tmp = s.tmp := rfl
@[simp] theorem setClk_result (level : Bool) (s : State) : (setClk level s).result = s.result := rfl
@[simp] theorem setClk_status (level : Bool) (s : State) : (setClk level s).status = s.status := rfl
@[simp] theorem setClk_done (level : Bool) (s : State) : (setClk level s).done = s.done := rfl
@[simp] theorem setClk_fault (level : Bool) (s : State) : (setClk level s).fault = s.fault := rfl
@[simp] theorem setClk_faultCause (level : Bool) (s : State) : (setClk level s).faultCause = s.faultCause := rfl
@[simp] theorem setClk_trace (level : Bool) (s : State) : (setClk level s).trace = s.trace ++ [.set .clk level] := rfl
@[simp] theorem setClk_device (level : Bool) (s : State) : (setClk level s).device = (s.device.onClk s.clkQ level s.ceQ s.draws).1 := rfl
@[simp] theorem setClk_inputs (level : Bool) (s : State) : (setClk level s).inputs = s.inputs := rfl
@[simp] theorem setClk_draws (level : Bool) (s : State) : (setClk level s).draws = (s.device.onClk s.clkQ level s.ceQ s.draws).2 := rfl

/-! ### `setCe` -/

@[simp] theorem setCe_clkQ (level : Bool) (s : State) : (setCe level s).clkQ = s.clkQ := rfl
@[simp] theorem setCe_ceQ (level : Bool) (s : State) : (setCe level s).ceQ = level := rfl
@[simp] theorem setCe_dioQ (level : Bool) (s : State) : (setCe level s).dioQ = s.dioQ := rfl
@[simp] theorem setCe_strict (level : Bool) (s : State) : (setCe level s).strict = s.strict := rfl
@[simp] theorem setCe_slot (level : Bool) (s : State) : (setCe level s).slot = s.slot := rfl
@[simp] theorem setCe_tmp (level : Bool) (s : State) : (setCe level s).tmp = s.tmp := rfl
@[simp] theorem setCe_result (level : Bool) (s : State) : (setCe level s).result = s.result := rfl
@[simp] theorem setCe_status (level : Bool) (s : State) : (setCe level s).status = s.status := rfl
@[simp] theorem setCe_done (level : Bool) (s : State) : (setCe level s).done = s.done := rfl
@[simp] theorem setCe_fault (level : Bool) (s : State) : (setCe level s).fault = s.fault := rfl
@[simp] theorem setCe_faultCause (level : Bool) (s : State) : (setCe level s).faultCause = s.faultCause := rfl
@[simp] theorem setCe_trace (level : Bool) (s : State) : (setCe level s).trace = s.trace ++ [.set .ce level] := rfl
@[simp] theorem setCe_device (level : Bool) (s : State) : (setCe level s).device = s.device.onCe s.ceQ level := rfl
@[simp] theorem setCe_inputs (level : Bool) (s : State) : (setCe level s).inputs = s.inputs := rfl
@[simp] theorem setCe_draws (level : Bool) (s : State) : (setCe level s).draws = s.draws := rfl

/-! ### `setDio` -/

@[simp] theorem setDio_clkQ (level : Bool) (s : State) : (setDio level s).clkQ = s.clkQ := rfl
@[simp] theorem setDio_ceQ (level : Bool) (s : State) : (setDio level s).ceQ = s.ceQ := rfl
@[simp] theorem setDio_dioQ (level : Bool) (s : State) : (setDio level s).dioQ = some level := rfl
@[simp] theorem setDio_strict (level : Bool) (s : State) : (setDio level s).strict = s.strict := rfl
@[simp] theorem setDio_slot (level : Bool) (s : State) : (setDio level s).slot = s.slot := rfl
@[simp] theorem setDio_tmp (level : Bool) (s : State) : (setDio level s).tmp = s.tmp := rfl
@[simp] theorem setDio_result (level : Bool) (s : State) : (setDio level s).result = s.result := rfl
@[simp] theorem setDio_status (level : Bool) (s : State) : (setDio level s).status = s.status := rfl
@[simp] theorem setDio_done (level : Bool) (s : State) : (setDio level s).done = s.done := rfl
@[simp] theorem setDio_fault (level : Bool) (s : State) : (setDio level s).fault = s.fault := rfl
@[simp] theorem setDio_faultCause (level : Bool) (s : State) : (setDio level s).faultCause = s.faultCause := rfl
@[simp] theorem setDio_trace (level : Bool) (s : State) : (setDio level s).trace = s.trace ++ [.set .dio level] := rfl
@[simp] theorem setDio_device (level : Bool) (s : State) : (setDio level s).device = s.device.onDrive level := rfl
@[simp] theorem setDio_inputs (level : Bool) (s : State) : (setDio level s).inputs = s.inputs := rfl
@[simp] theorem setDio_draws (level : Bool) (s : State) : (setDio level s).draws = s.draws := rfl

/-! ### `sampleBit` -/

@[simp] theorem sampleBit_clkQ (i : Fin 8) (s : State) : (sampleBit i s).clkQ = s.clkQ := rfl
@[simp] theorem sampleBit_ceQ (i : Fin 8) (s : State) : (sampleBit i s).ceQ = s.ceQ := rfl
@[simp] theorem sampleBit_dioQ (i : Fin 8) (s : State) : (sampleBit i s).dioQ = s.dioQ := rfl
@[simp] theorem sampleBit_strict (i : Fin 8) (s : State) : (sampleBit i s).strict = s.strict := rfl
@[simp] theorem sampleBit_slot (i : Fin 8) (s : State) : (sampleBit i s).slot = s.slot := rfl
@[simp] theorem sampleBit_tmp (i : Fin 8) (s : State) : (sampleBit i s).tmp = { s.tmp with bitIndex := i, acc := accumulate s.tmp.acc i (s.device.onSample s.clkQ s.ceQ s.draws).1 } := rfl
@[simp] theorem sampleBit_result (i : Fin 8) (s : State) : (sampleBit i s).result = s.result := rfl
@[simp] theorem sampleBit_status (i : Fin 8) (s : State) : (sampleBit i s).status = s.status := rfl
@[simp] theorem sampleBit_done (i : Fin 8) (s : State) : (sampleBit i s).done = s.done := rfl
@[simp] theorem sampleBit_fault (i : Fin 8) (s : State) : (sampleBit i s).fault = s.fault := rfl
@[simp] theorem sampleBit_faultCause (i : Fin 8) (s : State) : (sampleBit i s).faultCause = s.faultCause := rfl
@[simp] theorem sampleBit_trace (i : Fin 8) (s : State) : (sampleBit i s).trace = s.trace ++ [.sample (s.device.onSample s.clkQ s.ceQ s.draws).1] := rfl
@[simp] theorem sampleBit_device (i : Fin 8) (s : State) : (sampleBit i s).device = (s.device.onSample s.clkQ s.ceQ s.draws).2.1 := rfl
@[simp] theorem sampleBit_inputs (i : Fin 8) (s : State) : (sampleBit i s).inputs = s.inputs := rfl
@[simp] theorem sampleBit_draws (i : Fin 8) (s : State) : (sampleBit i s).draws = (s.device.onSample s.clkQ s.ceQ s.draws).2.2 := rfl

/-! ### `raise` -/

@[simp] theorem raise_clkQ (cause : FaultCause) (info : Word) (s : State) : (raise cause info s).clkQ = s.clkQ := rfl
@[simp] theorem raise_ceQ (cause : FaultCause) (info : Word) (s : State) : (raise cause info s).ceQ = s.ceQ := rfl
@[simp] theorem raise_dioQ (cause : FaultCause) (info : Word) (s : State) : (raise cause info s).dioQ = s.dioQ := rfl
@[simp] theorem raise_strict (cause : FaultCause) (info : Word) (s : State) : (raise cause info s).strict = s.strict := rfl
@[simp] theorem raise_slot (cause : FaultCause) (info : Word) (s : State) : (raise cause info s).slot = s.slot := rfl
@[simp] theorem raise_tmp (cause : FaultCause) (info : Word) (s : State) : (raise cause info s).tmp = s.tmp := rfl
@[simp] theorem raise_result (cause : FaultCause) (info : Word) (s : State) : (raise cause info s).result = s.result := rfl
@[simp] theorem raise_status (cause : FaultCause) (info : Word) (s : State) : (raise cause info s).status = s.status := rfl
@[simp] theorem raise_done (cause : FaultCause) (info : Word) (s : State) : (raise cause info s).done = s.done := rfl
@[simp] theorem raise_fault (cause : FaultCause) (info : Word) (s : State) : (raise cause info s).fault = true := rfl
@[simp] theorem raise_faultCause (cause : FaultCause) (info : Word) (s : State) : (raise cause info s).faultCause = faultCode cause := rfl
@[simp] theorem raise_trace (cause : FaultCause) (info : Word) (s : State) : (raise cause info s).trace = s.trace ++ [.fault cause info] := rfl
@[simp] theorem raise_device (cause : FaultCause) (info : Word) (s : State) : (raise cause info s).device = s.device := rfl
@[simp] theorem raise_inputs (cause : FaultCause) (info : Word) (s : State) : (raise cause info s).inputs = s.inputs := rfl
@[simp] theorem raise_draws (cause : FaultCause) (info : Word) (s : State) : (raise cause info s).draws = s.draws := rfl

/-! ### `startBinding` -/

@[simp] theorem startBinding_clkQ (strict : Bool) (s : State) : (startBinding strict s).clkQ = false := rfl
@[simp] theorem startBinding_ceQ (strict : Bool) (s : State) : (startBinding strict s).ceQ = s.ceQ := rfl
@[simp] theorem startBinding_dioQ (strict : Bool) (s : State) : (startBinding strict s).dioQ = s.dioQ := rfl
@[simp] theorem startBinding_strict (strict : Bool) (s : State) : (startBinding strict s).strict = s.strict := rfl
@[simp] theorem startBinding_slot (strict : Bool) (s : State) : (startBinding strict s).slot = .binding strict := rfl
@[simp] theorem startBinding_tmp (strict : Bool) (s : State) : (startBinding strict s).tmp = s.tmp := rfl
@[simp] theorem startBinding_result (strict : Bool) (s : State) : (startBinding strict s).result = s.result := rfl
@[simp] theorem startBinding_status (strict : Bool) (s : State) : (startBinding strict s).status = s.status := rfl
@[simp] theorem startBinding_done (strict : Bool) (s : State) : (startBinding strict s).done = false := rfl
@[simp] theorem startBinding_fault (strict : Bool) (s : State) : (startBinding strict s).fault = s.fault := rfl
@[simp] theorem startBinding_faultCause (strict : Bool) (s : State) : (startBinding strict s).faultCause = s.faultCause := rfl
@[simp] theorem startBinding_trace (strict : Bool) (s : State) : (startBinding strict s).trace = s.trace ++ [.set .clk false] := rfl
@[simp] theorem startBinding_device (strict : Bool) (s : State) : (startBinding strict s).device = (s.device.onClk s.clkQ false s.ceQ s.draws).1 := rfl
@[simp] theorem startBinding_inputs (strict : Bool) (s : State) : (startBinding strict s).inputs = s.inputs := rfl
@[simp] theorem startBinding_draws (strict : Bool) (s : State) : (startBinding strict s).draws = (s.device.onClk s.clkQ false s.ceQ s.draws).2 := rfl

/-! ### `finishBinding` -/

@[simp] theorem finishBinding_clkQ (strict : Bool) (s : State) : (finishBinding strict s).clkQ = s.clkQ := rfl
@[simp] theorem finishBinding_ceQ (strict : Bool) (s : State) : (finishBinding strict s).ceQ = false := rfl
@[simp] theorem finishBinding_dioQ (strict : Bool) (s : State) : (finishBinding strict s).dioQ = none := rfl
@[simp] theorem finishBinding_strict (strict : Bool) (s : State) : (finishBinding strict s).strict = strict := rfl
@[simp] theorem finishBinding_slot (strict : Bool) (s : State) : (finishBinding strict s).slot = .idle := rfl
@[simp] theorem finishBinding_tmp (strict : Bool) (s : State) : (finishBinding strict s).tmp = {} := rfl
@[simp] theorem finishBinding_result (strict : Bool) (s : State) : (finishBinding strict s).result = none := rfl
@[simp] theorem finishBinding_status (strict : Bool) (s : State) : (finishBinding strict s).status = .ok := rfl
@[simp] theorem finishBinding_done (strict : Bool) (s : State) : (finishBinding strict s).done = false := rfl
@[simp] theorem finishBinding_fault (strict : Bool) (s : State) : (finishBinding strict s).fault = false := rfl
@[simp] theorem finishBinding_faultCause (strict : Bool) (s : State) : (finishBinding strict s).faultCause = 0 := rfl
@[simp] theorem finishBinding_trace (strict : Bool) (s : State) : (finishBinding strict s).trace = s.trace ++ [.set .ce false] := rfl
@[simp] theorem finishBinding_device (strict : Bool) (s : State) : (finishBinding strict s).device = s.device.onCe s.ceQ false := rfl
@[simp] theorem finishBinding_inputs (strict : Bool) (s : State) : (finishBinding strict s).inputs = s.inputs := rfl
@[simp] theorem finishBinding_draws (strict : Bool) (s : State) : (finishBinding strict s).draws = s.draws := rfl

/-! ### `occupy` -/

@[simp] theorem occupy_clkQ (cmd : Instr) (prims : List Prim) (after : Epilogue) (s : State) : (occupy cmd prims after s).clkQ = s.clkQ := rfl
@[simp] theorem occupy_ceQ (cmd : Instr) (prims : List Prim) (after : Epilogue) (s : State) : (occupy cmd prims after s).ceQ = s.ceQ := rfl
@[simp] theorem occupy_dioQ (cmd : Instr) (prims : List Prim) (after : Epilogue) (s : State) : (occupy cmd prims after s).dioQ = s.dioQ := rfl
@[simp] theorem occupy_strict (cmd : Instr) (prims : List Prim) (after : Epilogue) (s : State) : (occupy cmd prims after s).strict = s.strict := rfl
@[simp] theorem occupy_slot (cmd : Instr) (prims : List Prim) (after : Epilogue) (s : State) : (occupy cmd prims after s).slot = .busy cmd ⟨prims, after⟩ := rfl
@[simp] theorem occupy_tmp (cmd : Instr) (prims : List Prim) (after : Epilogue) (s : State) : (occupy cmd prims after s).tmp = s.tmp := rfl
@[simp] theorem occupy_result (cmd : Instr) (prims : List Prim) (after : Epilogue) (s : State) : (occupy cmd prims after s).result = s.result := rfl
@[simp] theorem occupy_status (cmd : Instr) (prims : List Prim) (after : Epilogue) (s : State) : (occupy cmd prims after s).status = s.status := rfl
@[simp] theorem occupy_done (cmd : Instr) (prims : List Prim) (after : Epilogue) (s : State) : (occupy cmd prims after s).done = s.done := rfl
@[simp] theorem occupy_fault (cmd : Instr) (prims : List Prim) (after : Epilogue) (s : State) : (occupy cmd prims after s).fault = s.fault := rfl
@[simp] theorem occupy_faultCause (cmd : Instr) (prims : List Prim) (after : Epilogue) (s : State) : (occupy cmd prims after s).faultCause = s.faultCause := rfl
@[simp] theorem occupy_trace (cmd : Instr) (prims : List Prim) (after : Epilogue) (s : State) : (occupy cmd prims after s).trace = s.trace := rfl
@[simp] theorem occupy_device (cmd : Instr) (prims : List Prim) (after : Epilogue) (s : State) : (occupy cmd prims after s).device = s.device := rfl
@[simp] theorem occupy_inputs (cmd : Instr) (prims : List Prim) (after : Epilogue) (s : State) : (occupy cmd prims after s).inputs = s.inputs := rfl
@[simp] theorem occupy_draws (cmd : Instr) (prims : List Prim) (after : Epilogue) (s : State) : (occupy cmd prims after s).draws = s.draws := rfl

/-! ### `acceptAs` -/

@[simp] theorem acceptAs_clkQ (cmd : Instr) (prims : List Prim) (after : Epilogue) (s : State) : (acceptAs cmd prims after s).clkQ = s.clkQ := rfl
@[simp] theorem acceptAs_ceQ (cmd : Instr) (prims : List Prim) (after : Epilogue) (s : State) : (acceptAs cmd prims after s).ceQ = s.ceQ := rfl
@[simp] theorem acceptAs_dioQ (cmd : Instr) (prims : List Prim) (after : Epilogue) (s : State) : (acceptAs cmd prims after s).dioQ = s.dioQ := rfl
@[simp] theorem acceptAs_strict (cmd : Instr) (prims : List Prim) (after : Epilogue) (s : State) : (acceptAs cmd prims after s).strict = s.strict := rfl
@[simp] theorem acceptAs_slot (cmd : Instr) (prims : List Prim) (after : Epilogue) (s : State) : (acceptAs cmd prims after s).slot = .busy cmd ⟨prims, after⟩ := rfl
@[simp] theorem acceptAs_tmp (cmd : Instr) (prims : List Prim) (after : Epilogue) (s : State) : (acceptAs cmd prims after s).tmp = {} := rfl
@[simp] theorem acceptAs_result (cmd : Instr) (prims : List Prim) (after : Epilogue) (s : State) : (acceptAs cmd prims after s).result = s.result := rfl
@[simp] theorem acceptAs_status (cmd : Instr) (prims : List Prim) (after : Epilogue) (s : State) : (acceptAs cmd prims after s).status = s.status := rfl
@[simp] theorem acceptAs_done (cmd : Instr) (prims : List Prim) (after : Epilogue) (s : State) : (acceptAs cmd prims after s).done = s.done := rfl
@[simp] theorem acceptAs_fault (cmd : Instr) (prims : List Prim) (after : Epilogue) (s : State) : (acceptAs cmd prims after s).fault = s.fault := rfl
@[simp] theorem acceptAs_faultCause (cmd : Instr) (prims : List Prim) (after : Epilogue) (s : State) : (acceptAs cmd prims after s).faultCause = s.faultCause := rfl
@[simp] theorem acceptAs_trace (cmd : Instr) (prims : List Prim) (after : Epilogue) (s : State) : (acceptAs cmd prims after s).trace = s.trace := rfl
@[simp] theorem acceptAs_device (cmd : Instr) (prims : List Prim) (after : Epilogue) (s : State) : (acceptAs cmd prims after s).device = s.device := rfl
@[simp] theorem acceptAs_inputs (cmd : Instr) (prims : List Prim) (after : Epilogue) (s : State) : (acceptAs cmd prims after s).inputs = s.inputs := rfl
@[simp] theorem acceptAs_draws (cmd : Instr) (prims : List Prim) (after : Epilogue) (s : State) : (acceptAs cmd prims after s).draws = s.draws := rfl

/-! ### `complete` -/

@[simp] theorem complete_clkQ (s : State) : (complete s).clkQ = s.clkQ := rfl
@[simp] theorem complete_ceQ (s : State) : (complete s).ceQ = s.ceQ := rfl
@[simp] theorem complete_dioQ (s : State) : (complete s).dioQ = s.dioQ := rfl
@[simp] theorem complete_strict (s : State) : (complete s).strict = s.strict := rfl
@[simp] theorem complete_slot (s : State) : (complete s).slot = .idle := rfl
@[simp] theorem complete_tmp (s : State) : (complete s).tmp = s.tmp := rfl
@[simp] theorem complete_result (s : State) : (complete s).result = s.result := rfl
@[simp] theorem complete_status (s : State) : (complete s).status = .ok := rfl
@[simp] theorem complete_done (s : State) : (complete s).done = true := rfl
@[simp] theorem complete_fault (s : State) : (complete s).fault = s.fault := rfl
@[simp] theorem complete_faultCause (s : State) : (complete s).faultCause = s.faultCause := rfl
@[simp] theorem complete_trace (s : State) : (complete s).trace = s.trace := rfl
@[simp] theorem complete_device (s : State) : (complete s).device = s.device := rfl
@[simp] theorem complete_inputs (s : State) : (complete s).inputs = s.inputs := rfl
@[simp] theorem complete_draws (s : State) : (complete s).draws = s.draws := rfl

/-! ### `completeWith` -/

@[simp] theorem completeWith_clkQ (v : Word) (st : Status) (s : State) : (completeWith v st s).clkQ = s.clkQ := rfl
@[simp] theorem completeWith_ceQ (v : Word) (st : Status) (s : State) : (completeWith v st s).ceQ = s.ceQ := rfl
@[simp] theorem completeWith_dioQ (v : Word) (st : Status) (s : State) : (completeWith v st s).dioQ = s.dioQ := rfl
@[simp] theorem completeWith_strict (v : Word) (st : Status) (s : State) : (completeWith v st s).strict = s.strict := rfl
@[simp] theorem completeWith_slot (v : Word) (st : Status) (s : State) : (completeWith v st s).slot = .idle := rfl
@[simp] theorem completeWith_tmp (v : Word) (st : Status) (s : State) : (completeWith v st s).tmp = s.tmp := rfl
@[simp] theorem completeWith_result (v : Word) (st : Status) (s : State) : (completeWith v st s).result = some v := rfl
@[simp] theorem completeWith_status (v : Word) (st : Status) (s : State) : (completeWith v st s).status = st := rfl
@[simp] theorem completeWith_done (v : Word) (st : Status) (s : State) : (completeWith v st s).done = true := rfl
@[simp] theorem completeWith_fault (v : Word) (st : Status) (s : State) : (completeWith v st s).fault = s.fault := rfl
@[simp] theorem completeWith_faultCause (v : Word) (st : Status) (s : State) : (completeWith v st s).faultCause = s.faultCause := rfl
@[simp] theorem completeWith_trace (v : Word) (st : Status) (s : State) : (completeWith v st s).trace = s.trace := rfl
@[simp] theorem completeWith_device (v : Word) (st : Status) (s : State) : (completeWith v st s).device = s.device := rfl
@[simp] theorem completeWith_inputs (v : Word) (st : Status) (s : State) : (completeWith v st s).inputs = s.inputs := rfl
@[simp] theorem completeWith_draws (v : Word) (st : Status) (s : State) : (completeWith v st s).draws = s.draws := rfl

/-! ### `completeRead` -/

@[simp] theorem completeRead_clkQ (f : Field) (d : Nat) (s : State) : (completeRead f d s).clkQ = s.clkQ := rfl
@[simp] theorem completeRead_ceQ (f : Field) (d : Nat) (s : State) : (completeRead f d s).ceQ = s.ceQ := rfl
@[simp] theorem completeRead_dioQ (f : Field) (d : Nat) (s : State) : (completeRead f d s).dioQ = s.dioQ := rfl
@[simp] theorem completeRead_strict (f : Field) (d : Nat) (s : State) : (completeRead f d s).strict = s.strict := rfl
@[simp] theorem completeRead_slot (f : Field) (d : Nat) (s : State) : (completeRead f d s).slot = .idle := rfl
@[simp] theorem completeRead_tmp (f : Field) (d : Nat) (s : State) : (completeRead f d s).tmp = s.tmp := rfl
@[simp] theorem completeRead_result (f : Field) (d : Nat) (s : State) : (completeRead f d s).result = some (readResult s.strict f d) := rfl
@[simp] theorem completeRead_status (f : Field) (d : Nat) (s : State) : (completeRead f d s).status = readStatus s.strict f d := rfl
@[simp] theorem completeRead_done (f : Field) (d : Nat) (s : State) : (completeRead f d s).done = true := rfl
@[simp] theorem completeRead_fault (f : Field) (d : Nat) (s : State) : (completeRead f d s).fault = s.fault := rfl
@[simp] theorem completeRead_faultCause (f : Field) (d : Nat) (s : State) : (completeRead f d s).faultCause = s.faultCause := rfl
@[simp] theorem completeRead_trace (f : Field) (d : Nat) (s : State) : (completeRead f d s).trace = s.trace := rfl
@[simp] theorem completeRead_device (f : Field) (d : Nat) (s : State) : (completeRead f d s).device = s.device := rfl
@[simp] theorem completeRead_inputs (f : Field) (d : Nat) (s : State) : (completeRead f d s).inputs = s.inputs := rfl
@[simp] theorem completeRead_draws (f : Field) (d : Nat) (s : State) : (completeRead f d s).draws = s.draws := rfl

/-! ### `runEpilogue`, epilogue by epilogue -/

@[simp] theorem runEpilogue_finish (cmd : Instr) (s : State) : runEpilogue cmd .finish s = complete s := rfl
@[simp] theorem runEpilogue_returnByte (cmd : Instr) (s : State) :
    runEpilogue cmd .returnByte s = completeWith (s.tmp.acc.setWidth 16) .ok s := rfl
@[simp] theorem runEpilogue_readValue_result (cmd : Instr) (f : Field) (s : State) :
    (runEpilogue cmd (.readValue f) s).result =
      some (readResult s.strict f (packedToDecimal (maskRead f s.tmp.acc))) := rfl
@[simp] theorem runEpilogue_readValue_status (cmd : Instr) (f : Field) (s : State) :
    (runEpilogue cmd (.readValue f) s).status =
      readStatus s.strict f (packedToDecimal (maskRead f s.tmp.acc)) := rfl
@[simp] theorem runEpilogue_device (cmd : Instr) (after : Epilogue) (s : State) :
    (runEpilogue cmd after s).device = s.device := by cases after <;> rfl
@[simp] theorem runEpilogue_clkQ (cmd : Instr) (after : Epilogue) (s : State) :
    (runEpilogue cmd after s).clkQ = s.clkQ := by cases after <;> rfl
@[simp] theorem runEpilogue_ceQ (cmd : Instr) (after : Epilogue) (s : State) :
    (runEpilogue cmd after s).ceQ = s.ceQ := by cases after <;> rfl
@[simp] theorem runEpilogue_dioQ (cmd : Instr) (after : Epilogue) (s : State) :
    (runEpilogue cmd after s).dioQ = s.dioQ := by cases after <;> rfl
@[simp] theorem runEpilogue_strict (cmd : Instr) (after : Epilogue) (s : State) :
    (runEpilogue cmd after s).strict = s.strict := by cases after <;> rfl
@[simp] theorem runEpilogue_fault (cmd : Instr) (after : Epilogue) (s : State) :
    (runEpilogue cmd after s).fault = s.fault := by cases after <;> rfl
@[simp] theorem runEpilogue_faultCause (cmd : Instr) (after : Epilogue) (s : State) :
    (runEpilogue cmd after s).faultCause = s.faultCause := by cases after <;> rfl
@[simp] theorem runEpilogue_trace (cmd : Instr) (after : Epilogue) (s : State) :
    (runEpilogue cmd after s).trace = s.trace := by cases after <;> rfl
@[simp] theorem runEpilogue_inputs (cmd : Instr) (after : Epilogue) (s : State) :
    (runEpilogue cmd after s).inputs = s.inputs := by cases after <;> rfl
@[simp] theorem runEpilogue_draws (cmd : Instr) (after : Epilogue) (s : State) :
    (runEpilogue cmd after s).draws = s.draws := by cases after <;> rfl
@[simp] theorem fieldOfCode_codeOfField (f : Field) : fieldOfCode (codeOfField f) = some f := by cases f <;> rfl

/-! ### The data State is made of -/

/-- Reading back what was just written. -/
@[simp] theorem Memory.lookup_write_self (m : Memory) (a : Nat) (v : Byte) :
    Memory.lookup (Memory.write m a v) a = some v := by
  induction m with
  | nil => simp [Memory.write, Memory.lookup]
  | cons c m ih =>
    obtain ⟨k, w⟩ := c
    simp only [Memory.write]
    split
    · simp [Memory.lookup]
    · split
      · simp [Memory.lookup]
      · rename_i h1 h2
        simp [Memory.lookup, Ne.symm h2, ih]

/-- A write leaves every other address alone. -/
theorem Memory.lookup_write_ne (m : Memory) {a b : Nat} (v : Byte) (h : b ≠ a) :
    Memory.lookup (Memory.write m a v) b = Memory.lookup m b := by
  induction m with
  | nil => simp [Memory.write, Memory.lookup, Ne.symm h]
  | cons c m ih =>
    obtain ⟨k, w⟩ := c
    simp only [Memory.write]
    split
    · simp [Memory.lookup, Ne.symm h]
    · split
      · rename_i h1 h2
        subst h2
        simp [Memory.lookup, Ne.symm h]
      · simp only [Memory.lookup, ih]

@[simp] theorem Memory.read_write_self (m : Memory) (a : Nat) (v : Byte) :
    Memory.read (Memory.write m a v) a = v := by simp [Memory.read]

theorem Memory.read_write_ne (m : Memory) {a b : Nat} (v : Byte) (h : b ≠ a) :
    Memory.read (Memory.write m a v) b = Memory.read m b := by
  simp [Memory.read, Memory.lookup_write_ne m v h]

/-- The addresses of a memory after a write are the old ones and the written one. -/
theorem Memory.mem_write {m : Memory} {a : Nat} {v : Byte} {c : Host.Cell} (h : c ∈ Memory.write m a v) :
    c = (a, v) ∨ c ∈ m := by
  induction m with
  | nil => simpa [Memory.write] using h
  | cons d m ih =>
    obtain ⟨k, w⟩ := d
    simp only [Memory.write] at h
    split at h
    · simpa using h
    · split at h
      · rcases List.mem_cons.1 h with h | h
        · exact .inl h
        · exact .inr (List.mem_cons_of_mem _ h)
      · rcases List.mem_cons.1 h with h | h
        · exact .inr (h ▸ List.mem_cons_self)
        · exact (ih h).imp id (List.mem_cons_of_mem _)

/-- A write at an even wire address keeps the canonical form. -/
theorem Memory.wf_write {m : Memory} {a : Nat} (v : Byte) (h : Memory.wf m) (ha : a < 256) (he : a % 2 = 0) :
    Memory.wf (Memory.write m a v) := by
  refine ⟨?_, fun c hc => (Memory.mem_write hc).elim (fun e => e ▸ ⟨ha, he⟩) (h.2 c)⟩
  obtain ⟨hp, -⟩ := h
  induction m with
  | nil => simp [Memory.write]
  | cons c m ih =>
    obtain ⟨k, w⟩ := c
    obtain ⟨hk, hm⟩ := List.pairwise_cons.1 hp
    simp only [Memory.write]
    split
    · rename_i hlt
      refine List.pairwise_cons.2 ⟨fun x hx => ?_, hp⟩
      rcases List.mem_cons.1 hx with rfl | hx
      · exact hlt
      · exact lt_trans hlt (hk x hx)
    · split
      · rename_i h1 h2
        subst h2
        exact List.pairwise_cons.2 ⟨hk, hm⟩
      · rename_i h1 h2
        refine List.pairwise_cons.2 ⟨fun x hx => ?_, ih hm⟩
        rcases Memory.mem_write hx with rfl | hx
        · show k < a
          omega
        · exact hk x hx

/-- The register index of a wire address is an even address of the space. -/
theorem regIndex_lt (a : Byte) : regIndex a < 256 ∧ regIndex a % 2 = 0 := by
  revert a
  decide

end Sys2Proof.Machine
end

