-- ==== Sys2Proof/Laws/Ops.lean ====
section
/-!
SUPPORT. What the shared operations do, said once: the wire primitives and lists of them, the engine's advance, the
acceptance of an instruction, one step, and a run of the command in flight.
-/

namespace Sys2Proof.Machine

/-! ### Wire primitives -/

/-- A list of primitives performed in order. -/
def performAll (ps : List Prim) (s : State) : State := ps.foldl (fun s p => perform p s) s

@[simp] theorem performAll_nil (s : State) : performAll [] s = s := rfl

@[simp] theorem performAll_cons (p : Prim) (ps : List Prim) (s : State) :
    performAll (p :: ps) s = performAll ps (perform p s) := rfl

theorem performAll_append (ps qs : List Prim) (s : State) :
    performAll (ps ++ qs) s = performAll qs (performAll ps s) := List.foldl_append ..

@[simp] theorem perform_strict (p : Prim) (s : State) : (perform p s).strict = s.strict := by cases p <;> rfl
@[simp] theorem perform_slot (p : Prim) (s : State) : (perform p s).slot = s.slot := by cases p <;> rfl
@[simp] theorem perform_result (p : Prim) (s : State) : (perform p s).result = s.result := by cases p <;> rfl
@[simp] theorem perform_status (p : Prim) (s : State) : (perform p s).status = s.status := by cases p <;> rfl
@[simp] theorem perform_done (p : Prim) (s : State) : (perform p s).done = s.done := by cases p <;> rfl
@[simp] theorem perform_fault (p : Prim) (s : State) : (perform p s).fault = s.fault := by cases p <;> rfl
@[simp] theorem perform_faultCause (p : Prim) (s : State) : (perform p s).faultCause = s.faultCause := by
  cases p <;> rfl
@[simp] theorem perform_inputs (p : Prim) (s : State) : (perform p s).inputs = s.inputs := by cases p <;> rfl

@[simp] theorem performAll_strict (ps : List Prim) (s : State) : (performAll ps s).strict = s.strict := by
  induction ps generalizing s <;> simp [*]
@[simp] theorem performAll_slot (ps : List Prim) (s : State) : (performAll ps s).slot = s.slot := by
  induction ps generalizing s <;> simp [*]
@[simp] theorem performAll_result (ps : List Prim) (s : State) : (performAll ps s).result = s.result := by
  induction ps generalizing s <;> simp [*]
@[simp] theorem performAll_status (ps : List Prim) (s : State) : (performAll ps s).status = s.status := by
  induction ps generalizing s <;> simp [*]
@[simp] theorem performAll_done (ps : List Prim) (s : State) : (performAll ps s).done = s.done := by
  induction ps generalizing s <;> simp [*]
@[simp] theorem performAll_fault (ps : List Prim) (s : State) : (performAll ps s).fault = s.fault := by
  induction ps generalizing s <;> simp [*]
@[simp] theorem performAll_faultCause (ps : List Prim) (s : State) :
    (performAll ps s).faultCause = s.faultCause := by
  induction ps generalizing s <;> simp [*]
@[simp] theorem performAll_inputs (ps : List Prim) (s : State) : (performAll ps s).inputs = s.inputs := by
  induction ps generalizing s <;> simp [*]

/-- A primitive appends one event: its own, with whatever level a sample returned. -/
theorem perform_trace (p : Prim) (s : State) :
    ∃ e, (perform p s).trace = s.trace ++ [e] ∧ ∀ m : WireMonitor, m.see e = m.see p.event := by
  cases p <;> exact ⟨_, rfl, fun _ => rfl⟩

/-- The monitor follows the levels of CLK and CE. -/
theorem perform_levels (p : Prim) (s : State) (m : WireMonitor) (hc : m.clk = s.clkQ) (he : m.ce = s.ceQ) :
    (m.see p.event).clk = (perform p s).clkQ ∧ (m.see p.event).ce = (perform p s).ceQ := by
  cases p with
  | clk level => cases level <;> cases hm : m.ce <;> simp_all [Prim.event, WireMonitor.see, perform]
  | ce level => simp_all [Prim.event, WireMonitor.see, perform]
  | drive i level => simp_all [Prim.event, WireMonitor.see, perform]
  | sample i => simp_all [Prim.event, WireMonitor.see, perform]

/-- The fields that a primitive neither reads nor writes and that pace a run. -/
def State.paced (s : State) (slot : Slot) (inputs : List PortInput) (done : Bool) : State :=
  { s with slot := slot, inputs := inputs, done := done }

/-- Performing a primitive does not read the slot, the inputs or `done`. -/
theorem perform_paced (p : Prim) (s : State) (slot : Slot) (inputs : List PortInput) (done : Bool) :
    perform p (s.paced slot inputs done) = (perform p s).paced slot inputs done := by
  cases p <;> rfl

theorem performAll_paced (ps : List Prim) (s : State) (slot : Slot) (inputs : List PortInput) (done : Bool) :
    performAll ps (s.paced slot inputs done) = (performAll ps s).paced slot inputs done := by
  induction ps generalizing s with
  | nil => rfl
  | cons p ps ih => rw [performAll_cons, perform_paced, ih, performAll_cons]

/-! ### The engine's advance -/

/-- What follows the last primitive does not read the slot. -/
theorem runEpilogue_paced (cmd : Instr) (after : Epilogue) (s : State) (slot slot' : Slot)
    (inputs : List PortInput) (done : Bool) :
    runEpilogue cmd after (s.paced slot inputs done) = runEpilogue cmd after (s.paced slot' inputs done) := by
  cases after <;> rfl

/-- What an advance can do. -/
theorem advance_cases (s : State) :
    (s.slot = .idle ∧ advance s = s) ∨
    (∃ strict, s.slot = .binding strict ∧ advance s = finishBinding strict s) ∨
    (∃ cmd after, s.slot = .busy cmd ⟨[], after⟩ ∧ advance s = runEpilogue cmd after s) ∨
    (∃ cmd p after, s.slot = .busy cmd ⟨[p], after⟩ ∧ advance s = runEpilogue cmd after (perform p s)) ∨
    (∃ cmd p q ps after, s.slot = .busy cmd ⟨p :: q :: ps, after⟩ ∧
      advance s = occupy cmd (q :: ps) after (perform p s)) := by
  unfold advance
  split
  · exact .inl ⟨by assumption, rfl⟩
  · exact .inr (.inl ⟨_, by assumption, rfl⟩)
  · exact .inr (.inr (.inl ⟨_, _, by assumption, rfl⟩))
  · exact .inr (.inr (.inr (.inl ⟨_, _, _, by assumption, rfl⟩)))
  · exact .inr (.inr (.inr (.inr ⟨_, _, _, _, _, by assumption, rfl⟩)))

theorem advance_idle {s : State} (h : s.slot = .idle) : advance s = s := by simp [advance, h]

theorem advance_last {s : State} {cmd : Instr} {p : Prim} {after : Epilogue}
    (h : s.slot = .busy cmd ⟨[p], after⟩) : advance s = runEpilogue cmd after (perform p s) := by
  simp [advance, h]

theorem advance_more {s : State} {cmd : Instr} {p q : Prim} {ps : List Prim} {after : Epilogue}
    (h : s.slot = .busy cmd ⟨p :: q :: ps, after⟩) :
    advance s = occupy cmd (q :: ps) after (perform p s) := by
  simp [advance, h]

/-! ### Acceptance and steps -/

@[simp] theorem busy_iff (s : State) : s.busy = true ↔ s.slot ≠ .idle := by simp [State.busy]

@[simp] theorem busy_eq_false (s : State) : s.busy = false ↔ s.slot = .idle := by simp [State.busy]

/-- What the presentation of an instruction can do. -/
theorem present_cases (i : Instr) (accept : State → State) (s : State) :
    (s.slot = .idle ∧ s.fault = false ∧ present i accept s = accept { s with done := false }) ∨
    (s.slot ≠ .idle ∧ s.fault = false ∧
      present i accept s = advance (raise .overlap (encode i).overlapInfo { s with done := false })) ∨
    (s.fault = true ∧ present i accept s = quietStep s) := by
  unfold present
  split
  · exact .inr (.inr ⟨by assumption, rfl⟩)
  · have hf : s.fault = false := by simpa using ‹¬ s.fault = true›
    split
    · exact .inr (.inl ⟨by simpa using ‹s.busy = true›, hf, rfl⟩)
    · exact .inl ⟨by simpa using ‹¬ s.busy = true›, hf, rfl⟩

/-- A ready engine takes the instruction. -/
theorem present_ready {i : Instr} {accept : State → State} {s : State} (h : s.ready) :
    present i accept s = accept { s with done := false } := by
  simp [present, h.1, h.2]

/-- A step in which the port presents nothing. -/
theorem step_quiet {s : State} (h : s.quietFor 1) :
    step s = .next (quietStep { s with inputs := s.inputs.drop 1 }) := by
  unfold step
  split
  · rename_i he
    simp only [he, List.drop_nil]
    cases s; cases he; rfl
  · rename_i rest he
    simp [he]
  · rename_i strict rest he
    have := h (.bind strict) (by simp [he])
    cases this
  · rename_i r rest he
    have := h (.present r) (by simp [he])
    cases this

theorem State.quietFor_mono {s : State} {m n : Nat} (h : s.quietFor n) (hm : m ≤ n) : s.quietFor m :=
  fun x hx => h x ((List.take_subset_take_left (l := s.inputs) hm) hx)

theorem State.quietFor_drop {s t : State} {m n : Nat} (h : s.quietFor (m + n)) (ht : t.inputs = s.inputs.drop m) :
    t.quietFor n := by
  intro x hx
  refine h x ?_
  rw [ht] at hx
  rw [List.take_add]
  exact List.mem_append_right _ hx

/-! ### Runs -/

theorem Runs.zero (s : State) : Runs 0 s s := rfl

theorem Runs.eq_of_zero {s u : State} (h : Runs 0 s u) : s = u := by
  injection h

/-- A run whose first step is known. -/
theorem run_next (M : Host.Core) (n : Nat) (s t : M.State) (h : M.step s = .next t) :
    M.run (n + 1) s = M.run n t := by
  rw [Host.Core.run, h]

/-- The first step of a run. -/
theorem run_inv (M : Host.Core) (n : Nat) (s u : M.State) (h : M.run (n + 1) s = .next u) :
    ∃ t, M.step s = .next t ∧ M.run n t = .next u := by
  rw [Host.Core.run] at h
  cases e : M.step s with
  | next t =>
    rw [e] at h
    exact ⟨t, rfl, h⟩
  | fault r =>
    rw [e] at h
    cases h
  | refused r =>
    rw [e] at h
    cases h

theorem Runs.succ {n : Nat} {s t u : State} (h : step s = .next t) (hr : Runs n t u) : Runs (n + 1) s u :=
  (run_next Sys2Proof.core n s t h).trans hr

theorem Runs.of_succ {n : Nat} {s u : State} (h : Runs (n + 1) s u) : ∃ t, step s = .next t ∧ Runs n t u :=
  run_inv Sys2Proof.core n s u h

theorem Runs.trans {m n : Nat} {s t u : State} (h : Runs m s t) (hr : Runs n t u) : Runs (m + n) s u := by
  induction m generalizing s with
  | zero =>
    rw [h.eq_of_zero]
    simpa using hr
  | succ m ih =>
    obtain ⟨t', ht, h'⟩ := h.of_succ
    rw [Nat.add_right_comm]
    exact Runs.succ ht (ih h')

/-- A command in flight runs its lined-up primitives, one a step, and then its epilogue, if the port is quiet. -/
theorem runs_busy {ps : List Prim} (hne : ps ≠ []) {s : State} {cmd : Instr} {after : Epilogue}
    (hslot : s.slot = .busy cmd ⟨ps, after⟩) (hq : s.quietFor ps.length) :
    Runs ps.length s
      (runEpilogue cmd after (performAll ps (s.paced s.slot (s.inputs.drop ps.length) false))) := by
  induction ps generalizing s with
  | nil => exact absurd rfl hne
  | cons p ps ih =>
    have hstep := step_quiet (s := s) (State.quietFor_mono hq (by simp))
    cases ps with
    | nil =>
      refine Runs.succ (t := _) (hstep.trans (congrArg _ ?_)) (Runs.zero _)
      exact advance_last (s := s.paced s.slot (s.inputs.drop 1) false) hslot
    | cons q ps =>
      have ht := advance_more (s := s.paced s.slot (s.inputs.drop 1) false) hslot
      refine Runs.succ (hstep.trans (congrArg _ ht)) ?_
      rw [perform_paced]
      have hd : (s.inputs.drop 1).drop (q :: ps).length = s.inputs.drop (p :: q :: ps).length := by
        rw [List.drop_drop]
        congr 1
        simp [Nat.add_comm]
      have h := ih (by simp) (s := (perform p s).paced (.busy cmd ⟨q :: ps, after⟩) (s.inputs.drop 1) false) rfl
        (State.quietFor_drop (m := 1) (s := s) (by simpa [Nat.add_comm] using hq) rfl)
      convert h using 1
      · rfl
      · rw [performAll_cons, perform_paced, performAll_paced, performAll_paced, performAll_paced]
        show runEpilogue cmd after ((performAll (q :: ps) (perform p s)).paced _ _ _) =
          runEpilogue cmd after ((performAll (q :: ps) (perform p s)).paced _ ((s.inputs.drop 1).drop _) _)
        rw [hd]
        exact runEpilogue_paced ..

/-- Before its last primitive, a command in flight has performed one lined-up primitive a step, if the port is quiet. -/
theorem runs_busy_part {ps : List Prim} {s : State} {cmd : Instr} {after : Epilogue}
    (hslot : s.slot = .busy cmd ⟨ps, after⟩) {m : Nat} (hm : m < ps.length) (hq : s.quietFor m) :
    Runs m s { performAll (ps.take m) (s.paced s.slot (s.inputs.drop m) (if m = 0 then s.done else false)) with
      slot := .busy cmd ⟨ps.drop m, after⟩ } := by
  induction m generalizing s ps with
  | zero =>
    simp only [List.take_zero, performAll_nil, List.drop_zero, if_true]
    cases s
    cases hslot
    exact Runs.zero _
  | succ m ih =>
    match ps with
    | [] => simp at hm
    | [p] => simp at hm
    | p :: q :: ps =>
      have hstep := step_quiet (s := s) (State.quietFor_mono hq (by omega))
      have ht := advance_more (s := s.paced s.slot (s.inputs.drop 1) false) hslot
      have h := ih (ps := q :: ps) (s := (perform p s).paced (.busy cmd ⟨q :: ps, after⟩) (s.inputs.drop 1) false) rfl
        (by simpa using hm) (State.quietFor_drop (m := 1) (s := s) (by simpa [Nat.add_comm] using hq) rfl)
      refine Runs.succ (hstep.trans (congrArg _ ht)) ?_
      rw [perform_paced]
      convert h using 1
      · rfl
      · simp only [List.take_succ_cons, performAll_cons, List.drop_succ_cons, performAll_paced]
        simp [State.paced]

end Sys2Proof.Machine
end

