-- ==== Sys2Proof/Laws/Wire.lean ====
section
/-!
SUPPORT. What byte transfers and frames do to the lines, the trace and the temporaries, whatever the Device is.
-/

namespace Sys2Proof.Machine

/-! ### One byte -/

theorem wireOrder_eq (v : Byte) :
    wireOrder v = [v.getLsbD 0, v.getLsbD 1, v.getLsbD 2, v.getLsbD 3, v.getLsbD 4, v.getLsbD 5, v.getLsbD 6,
      v.getLsbD 7] := rfl

/-- Eight levels are the wire order of exactly one byte. -/
theorem exists_wireOrder (b0 b1 b2 b3 b4 b5 b6 b7 : Bool) :
    ∃ v : Byte, wireOrder v = [b0, b1, b2, b3, b4, b5, b6, b7] ∧
      accumulate (accumulate (accumulate (accumulate (accumulate (accumulate (accumulate (accumulate 0 0 b0) 1 b1)
        2 b2) 3 b3) 4 b4) 5 b5) 6 b6) 7 b7 = v := by
  refine ⟨_, ?_, rfl⟩
  revert b0 b1 b2 b3 b4 b5 b6 b7
  decide

/-- The bits of a byte, accumulated in wire order, are the byte. -/
theorem accumulate_bits (v : Byte) :
    accumulate (accumulate (accumulate (accumulate (accumulate (accumulate (accumulate (accumulate 0 0
      (v.getLsbD 0)) 1 (v.getLsbD 1)) 2 (v.getLsbD 2)) 3 (v.getLsbD 3)) 4 (v.getLsbD 4)) 5 (v.getLsbD 5)) 6
      (v.getLsbD 6)) 7 (v.getLsbD 7) = v := by
  revert v
  decide

/-- The first sample of a readByte starts the accumulator afresh (40_bitlink.md R110). -/
theorem accumulate_first (acc : Byte) (b : Bool) : accumulate acc 0 b = accumulate 0 0 b := by
  simp [accumulate]

/-- writeByte appends its 24 events, leaves CLK low and DATA at bit 7, and touches nothing else of the engine
(40_bitlink.md R108). -/
theorem writeByte_effect (v : Byte) (s : State) :
    (performAll (writeByte v) s).trace = s.trace ++ byteWritten v ∧
    (performAll (writeByte v) s).clkQ = false ∧ (performAll (writeByte v) s).ceQ = s.ceQ ∧
    (performAll (writeByte v) s).dioQ = some (v.getLsbD 7) ∧
    (performAll (writeByte v) s).tmp = { s.tmp with bitIndex := 7 } := by
  simp [writeByte, bitOrder, writeBit, perform, byteWritten, wireOrder_eq, bitWritten]

/-- One bit of readByte. -/
theorem readBit_effect (i : Fin 8) (s : State) :
    ∃ b, (performAll (readBit i) s).trace = s.trace ++ bitRead b ∧
      (performAll (readBit i) s).clkQ = false ∧ (performAll (readBit i) s).ceQ = s.ceQ ∧
      (performAll (readBit i) s).dioQ = s.dioQ ∧
      (performAll (readBit i) s).tmp = { s.tmp with bitIndex := i, acc := accumulate s.tmp.acc i b } := by
  refine ⟨(s.device.onSample s.clkQ s.ceQ s.draws).1, ?_⟩
  simp [readBit, perform, bitRead]

theorem readByte_eq : readByte = readBit 0 ++ (readBit 1 ++ (readBit 2 ++ (readBit 3 ++ (readBit 4 ++ (readBit 5 ++
    (readBit 6 ++ readBit 7)))))) := rfl

/-- readByte appends its 24 events, leaves CLK low and DATA as it was, and assembles the byte it sampled
(40_bitlink.md R111). -/
theorem readByte_effect (s : State) :
    ∃ v, (performAll readByte s).trace = s.trace ++ byteRead v ∧
      (performAll readByte s).clkQ = false ∧ (performAll readByte s).ceQ = s.ceQ ∧
      (performAll readByte s).dioQ = s.dioQ ∧
      (performAll readByte s).tmp = { s.tmp with bitIndex := 7, acc := v } := by
  simp only [readByte_eq, performAll_append]
  obtain ⟨b0, t0, c0, e0, d0, m0⟩ := readBit_effect 0 s
  obtain ⟨b1, t1, c1, e1, d1, m1⟩ := readBit_effect 1 (performAll (readBit 0) s)
  obtain ⟨b2, t2, c2, e2, d2, m2⟩ := readBit_effect 2 (performAll (readBit 1) (performAll (readBit 0) s))
  obtain ⟨b3, t3, c3, e3, d3, m3⟩ := readBit_effect 3
    (performAll (readBit 2) (performAll (readBit 1) (performAll (readBit 0) s)))
  obtain ⟨b4, t4, c4, e4, d4, m4⟩ := readBit_effect 4
    (performAll (readBit 3) (performAll (readBit 2) (performAll (readBit 1) (performAll (readBit 0) s))))
  obtain ⟨b5, t5, c5, e5, d5, m5⟩ := readBit_effect 5 (performAll (readBit 4)
    (performAll (readBit 3) (performAll (readBit 2) (performAll (readBit 1) (performAll (readBit 0) s)))))
  obtain ⟨b6, t6, c6, e6, d6, m6⟩ := readBit_effect 6 (performAll (readBit 5) (performAll (readBit 4)
    (performAll (readBit 3) (performAll (readBit 2) (performAll (readBit 1) (performAll (readBit 0) s))))))
  obtain ⟨b7, t7, c7, e7, d7, m7⟩ := readBit_effect 7 (performAll (readBit 6) (performAll (readBit 5)
    (performAll (readBit 4) (performAll (readBit 3) (performAll (readBit 2) (performAll (readBit 1)
      (performAll (readBit 0) s)))))))
  obtain ⟨v, hw, hv⟩ := exists_wireOrder b0 b1 b2 b3 b4 b5 b6 b7
  refine ⟨v, ?_, c7, ?_, ?_, ?_⟩
  · rw [t7, t6, t5, t4, t3, t2, t1, t0, byteRead, hw]
    simp [bitRead]
  · rw [e7, e6, e5, e4, e3, e2, e1, e0]
  · rw [d7, d6, d5, d4, d3, d2, d1, d0]
  · rw [m7, m6, m5, m4, m3, m2, m1, m0, ← hv, accumulate_first s.tmp.acc]

/-- readByte of an unspecified Device that presents the levels of `v` returns `v` (10_state.md R26). -/
theorem readByte_unspecified (v : Byte) (levels : List Bool) (s : State)
    (hd : s.device = .unspecified (wireOrder v ++ levels)) :
    (performAll readByte s).trace = s.trace ++ byteRead v ∧
      (performAll readByte s).tmp = { s.tmp with bitIndex := 7, acc := v } ∧
      (performAll readByte s).device = .unspecified levels := by
  have h := accumulate_bits v
  simp [readByte_eq, readBit, perform, byteRead, wireOrder_eq, bitRead, hd, Device.onSample, Device.onClk,
    accumulate_first s.tmp.acc]
  exact h

/-! ### Frames -/

theorem perform_ce (level : Bool) (s : State) : perform (.ce level) s = setCe level s := rfl

/-- A write frame appends its 50 events, leaves CLK and CE low and DATA at bit 7 of the data byte (41_transport.md R127). -/
theorem writeFrame_effect (a v : Byte) (s : State) :
    (performAll (writeFrame a v) s).trace = s.trace ++ frameWritten a v ∧
    (performAll (writeFrame a v) s).clkQ = false ∧ (performAll (writeFrame a v) s).ceQ = false ∧
    (performAll (writeFrame a v) s).dioQ = some (v.getLsbD 7) ∧
    (performAll (writeFrame a v) s).tmp = { s.tmp with bitIndex := 7 } := by
  obtain ⟨t1, -, -, -, m1⟩ := writeByte_effect a (setCe true s)
  obtain ⟨t2, c2, -, d2, m2⟩ := writeByte_effect v (performAll (writeByte a) (setCe true s))
  simp only [writeFrame, performAll_cons, performAll_append, performAll_nil, perform_ce]
  exact ⟨by simp [t2, t1, frameWritten], by simpa using c2, by simp, by simpa using d2, by simp [m2, m1]⟩

/-- A read frame appends its 50 events, leaves CLK and CE low and DATA at bit 7 of the address, and returns the byte it
sampled (41_transport.md R122). -/
theorem readFrame_effect (a : Byte) (s : State) :
    ∃ v, (performAll (readFrame a) s).trace = s.trace ++ frameRead a v ∧
      (performAll (readFrame a) s).clkQ = false ∧ (performAll (readFrame a) s).ceQ = false ∧
      (performAll (readFrame a) s).dioQ = some (a.getLsbD 7) ∧
      (performAll (readFrame a) s).tmp = { s.tmp with bitIndex := 7, acc := v } := by
  obtain ⟨t1, -, -, d1, m1⟩ := writeByte_effect a (setCe true s)
  obtain ⟨v, t2, c2, -, d2, m2⟩ := readByte_effect (performAll (writeByte a) (setCe true s))
  simp only [readFrame, performAll_cons, performAll_append, performAll_nil, perform_ce]
  exact ⟨v, by simp [t2, t1, frameRead], by simpa using c2, by simp, by simp [d2, d1], by simp [m2, m1]⟩

/-- A read frame on an unspecified Device that presents the levels of `v` returns `v`. -/
theorem readFrame_unspecified (a v : Byte) (levels : List Bool) (s : State)
    (hd : s.device = .unspecified (wireOrder v ++ levels)) :
    (performAll (readFrame a) s).trace = s.trace ++ frameRead a v ∧
      (performAll (readFrame a) s).tmp = { s.tmp with bitIndex := 7, acc := v } ∧
      (performAll (readFrame a) s).device = .unspecified levels := by
  obtain ⟨t1, -, -, -, m1⟩ := writeByte_effect a (setCe true s)
  have d1 : (performAll (writeByte a) (setCe true s)).device = .unspecified (wireOrder v ++ levels) := by
    simp [writeByte, bitOrder, writeBit, perform, hd, Device.onCe, Device.onClk, Device.onDrive]
  obtain ⟨t2, m2, d2⟩ := readByte_unspecified v levels (performAll (writeByte a) (setCe true s)) d1
  simp only [readFrame, performAll_cons, performAll_append, performAll_nil, perform_ce]
  exact ⟨by simp [t2, t1, frameRead], by simp [m2, m1], by simp [d2, Device.onCe]⟩

/-- A guarded write appends its 150 events and leaves CLK, CE and DATA low (42_writeguard.md R139). -/
theorem guardedWrite_effect (a v : Byte) (s : State) :
    (performAll (guardedWrite a v) s).trace = s.trace ++ guardWritten a v ∧
    (performAll (guardedWrite a v) s).clkQ = false ∧ (performAll (guardedWrite a v) s).ceQ = false ∧
    (performAll (guardedWrite a v) s).dioQ = some false ∧
    (performAll (guardedWrite a v) s).tmp = { s.tmp with bitIndex := 7 } := by
  simp only [guardedWrite, performAll_append, Reg.waddr]
  obtain ⟨t1, -, -, -, m1⟩ := writeFrame_effect 0x8E 0 s
  obtain ⟨t2, -, -, -, m2⟩ := writeFrame_effect a v (performAll (writeFrame 0x8E 0) s)
  obtain ⟨t3, c3, e3, d3, m3⟩ := writeFrame_effect 0x8E 0 (performAll (writeFrame a v) (performAll (writeFrame 0x8E 0) s))
  refine ⟨?_, c3, e3, d3, ?_⟩
  · rw [t3, t2, t1]
    simp [guardWritten]
  · rw [m3, m2, m1]

@[simp] theorem length_writeByte (v : Byte) : (writeByte v).length = 24 := by
  simp [writeByte, bitOrder, writeBit]
@[simp] theorem length_readByte : readByte.length = 24 := by simp [readByte, bitOrder, readBit]
@[simp] theorem length_writeFrame (a v : Byte) : (writeFrame a v).length = 50 := by simp [writeFrame]
@[simp] theorem length_readFrame (a : Byte) : (readFrame a).length = 50 := by simp [readFrame]
@[simp] theorem length_guardedWrite (a v : Byte) : (guardedWrite a v).length = 150 := by simp [guardedWrite]
@[simp] theorem length_fieldWrite (f : Field) (x : Word) : (fieldWrite f x).length = 150 := by simp [fieldWrite]
@[simp] theorem length_setDateBody (y m d : Word) : (setDateBody y m d).length = 450 := by simp [setDateBody]
@[simp] theorem length_setTimeBody (h m s : Word) : (setTimeBody h m s).length = 450 := by simp [setTimeBody]

/-! ### An accepted command, run to its epilogue -/

/-- The state an accepted command starts its primitives in, `n` steps of port input consumed. -/
def State.started (s : State) (n : Nat) : State :=
  { s with tmp := {}, done := false, inputs := s.inputs.drop n }

@[simp] theorem started_clkQ (s : State) (n : Nat) : (s.started n).clkQ = s.clkQ := rfl
@[simp] theorem started_ceQ (s : State) (n : Nat) : (s.started n).ceQ = s.ceQ := rfl
@[simp] theorem started_dioQ (s : State) (n : Nat) : (s.started n).dioQ = s.dioQ := rfl
@[simp] theorem started_strict (s : State) (n : Nat) : (s.started n).strict = s.strict := rfl
@[simp] theorem started_slot (s : State) (n : Nat) : (s.started n).slot = s.slot := rfl
@[simp] theorem started_tmp (s : State) (n : Nat) : (s.started n).tmp = {} := rfl
@[simp] theorem started_result (s : State) (n : Nat) : (s.started n).result = s.result := rfl
@[simp] theorem started_status (s : State) (n : Nat) : (s.started n).status = s.status := rfl
@[simp] theorem started_done (s : State) (n : Nat) : (s.started n).done = false := rfl
@[simp] theorem started_fault (s : State) (n : Nat) : (s.started n).fault = s.fault := rfl
@[simp] theorem started_faultCause (s : State) (n : Nat) : (s.started n).faultCause = s.faultCause := rfl
@[simp] theorem started_trace (s : State) (n : Nat) : (s.started n).trace = s.trace := rfl
@[simp] theorem started_device (s : State) (n : Nat) : (s.started n).device = s.device := rfl
@[simp] theorem started_inputs (s : State) (n : Nat) : (s.started n).inputs = s.inputs.drop n := rfl
@[simp] theorem started_draws (s : State) (n : Nat) : (s.started n).draws = s.draws := rfl

/-- An instruction whose acceptance lines up primitives runs them and its epilogue. -/
theorem performs_of_accept {i : Instr} {ps : List Prim} {after : Epilogue} {s : State} (hne : ps ≠ [])
    (he : exec i s = .next (present i (acceptAs i ps after) s)) (hr : s.ready) (hq : s.quietFor ps.length) :
    Performs i ps.length s (runEpilogue i after (performAll ps (s.started ps.length))) := by
  refine ⟨acceptAs i ps after { s with done := false }, by rw [he, present_ready hr], ?_⟩
  have h := runs_busy hne (s := acceptAs i ps after { s with done := false }) (cmd := i) (after := after) rfl hq
  convert h using 1
  have e : ∀ slot inputs, (acceptAs i ps after { s with done := false }).paced slot inputs false =
      State.paced { s with tmp := {}, done := false } slot inputs false := fun _ _ => rfl
  rw [e, performAll_paced]
  have e' : s.started ps.length = State.paced { s with tmp := {}, done := false } s.slot (s.inputs.drop ps.length) false := rfl
  rw [e', performAll_paced]
  exact runEpilogue_paced ..

theorem exec_writeFrameAt (reg : Reg) (v : Byte) (s : State) :
    exec (writeFrameAt reg v) s = .next (present (writeFrameAt reg v)
      (acceptAs (writeFrameAt reg v) (writeFrame reg.waddr v) .endWriteFrame) s) := by cases reg <;> rfl

theorem exec_readFrameAt (reg : Reg) (s : State) :
    exec (readFrameAt reg) s = .next (present (readFrameAt reg)
      (acceptAs (readFrameAt reg) (readFrame (reg.waddr + 1)) .endReadFrame) s) := by cases reg <;> rfl

theorem exec_getf (f : Field) (s : State) :
    exec (.getf (codeOfField f)) s = .next (present (.getf (codeOfField f))
      (acceptAs (.getf (codeOfField f)) (readFrame (raddr f)) (.readValue f)) s) := by
  cases f <;> rfl

/-- START and PAUSE: a read frame, and then the guarded write of the byte it returned. -/
theorem performs_of_writeBack {i : Instr} {a : Byte} {op : HaltOp} {s q : State}
    (he : exec i s = .next (present i (acceptAs i (readFrame a) (.writeBack op)) s)) (hr : s.ready)
    (hq : s.quietFor 200) (hf : q = performAll (readFrame a) (s.started 200)) :
    Performs i 200 s (complete (performAll (guardedWrite Reg.second.waddr (haltByte op q.tmp.acc))
      { q with tmp := { q.tmp with raw := q.tmp.acc } })) := by
  have hne : ∀ v, guardedWrite Reg.second.waddr v ≠ [] := fun v h => by
    have := length_guardedWrite Reg.second.waddr v
    rw [h] at this
    cases this
  obtain ⟨t, ht, hrun⟩ := performs_of_accept (by simp [readFrame]) he hr
    (by simpa using State.quietFor_mono hq (show 50 ≤ 200 by decide))
  rw [length_readFrame] at hrun
  have e : s.started 50 = State.paced (s.started 200) s.slot (s.inputs.drop 50) false := rfl
  have hin : q.inputs = s.inputs.drop 200 := by simp [hf, State.started]
  have hdone : q.done = false := by simp [hf, State.started]
  rw [e, performAll_paced, ← hf] at hrun
  have hb := runs_busy (hne (haltByte op q.tmp.acc))
    (s := runEpilogue i (.writeBack op) (q.paced s.slot (s.inputs.drop 50) false)) rfl
    (State.quietFor_drop (s := s) (m := 50) (by simpa using hq) rfl)
  refine ⟨t, ht, ?_⟩
  have h200 := hrun.trans hb
  rw [length_guardedWrite] at h200
  convert h200 using 1
  have hd : (s.inputs.drop 50).drop 150 = s.inputs.drop 200 := by simp
  have hx : ({ q with tmp := { q.tmp with raw := q.tmp.acc } } : State) =
      State.paced { q with tmp := { q.tmp with raw := q.tmp.acc } } q.slot (s.inputs.drop 200) false := by
    simp only [State.paced, ← hin, ← hdone]
  rw [hx]
  show runEpilogue i .finish (performAll _ (State.paced { q with tmp := { q.tmp with raw := q.tmp.acc } } _ _ _)) =
    runEpilogue i .finish (performAll _
      (State.paced { q with tmp := { q.tmp with raw := q.tmp.acc } } _ ((s.inputs.drop 50).drop 150) false))
  rw [hd, performAll_paced, performAll_paced]
  exact runEpilogue_paced ..

/-- A command's first primitives, before its last: the engine is still busy with it. -/
theorem performs_part_of_accept {i : Instr} {ps : List Prim} {after : Epilogue} {s : State} {m : Nat}
    (hm : m < ps.length) (he : exec i s = .next (present i (acceptAs i ps after) s)) (hr : s.ready)
    (hq : s.quietFor m) :
    Performs i m s { performAll (ps.take m) (s.started m) with slot := .busy i ⟨ps.drop m, after⟩ } := by
  refine ⟨acceptAs i ps after { s with done := false }, by rw [he, present_ready hr], ?_⟩
  have h := runs_busy_part (s := acceptAs i ps after { s with done := false }) rfl hm hq
  convert h using 1
  have hdone : (if m = 0 then (acceptAs i ps after { s with done := false }).done else false) = false := by
    split <;> rfl
  have e : ∀ slot inputs, (acceptAs i ps after { s with done := false }).paced slot inputs false =
      State.paced { s with tmp := {}, done := false } slot inputs false := fun _ _ => rfl
  have e' : s.started m = State.paced { s with tmp := {}, done := false } s.slot (s.inputs.drop m) false := rfl
  rw [hdone, e, e', performAll_paced, performAll_paced]
  rfl

end Sys2Proof.Machine
end

