-- ==== Sys2Proof/Laws/Device.lean ====
section
/-!
SUPPORT. What frames do to the reference Device and to the unpowered Device (20_memory.md R66 to R73).
-/

namespace Sys2Proof.Machine

/-! ### The reference Device: one byte -/

/-- The bits of a byte, put in wire order, are the byte. -/
@[simp] theorem putBit_bits (v : Byte) :
    putBit (putBit (putBit (putBit (putBit (putBit (putBit (putBit (0#8) 0 v[0]) 1 v[1]) 2 v[2]) 3 v[3]) 4 v[4]) 5
      v[5]) 6 v[6]) 7 v[7] = v := by
  revert v
  decide

/-- The bits of a byte, accumulated in wire order, are the byte. -/
@[simp] theorem accumulate_getElem (v : Byte) :
    accumulate (accumulate (accumulate (accumulate (accumulate (accumulate (accumulate (accumulate (0#8) 0 v[0]) 1
      v[1]) 2 v[2]) 3 v[3]) 4 v[4]) 5 v[5]) 6 v[6]) 7 v[7] = v := accumulate_bits v

/-- The address byte of a frame is latched and selects the direction (20_memory.md R68). -/
theorem writeByte_reference_addr (a : Byte) (s : State) (r : RefDevice) (hc : s.clkQ = false) (he : s.ceQ = true)
    (hd : s.device = .reference { r with phase := .addr, clocks := 0, addrShift := 0 }) :
    (performAll (writeByte a) s).device = .reference { r with
      phase := if a.getLsbD 0 then .readData else .writeData, clocks := 8, addrShift := a, dio := some (a.getLsbD 7) } ∧
    (performAll (writeByte a) s).draws = s.draws := by
  constructor <;>
    simp [writeByte, bitOrder, writeBit, perform, Device.onDrive, Device.onClk, hd, hc, he, RefDevice.clkRise,
      RefDevice.clkFall]

/-- The data byte of a write frame is latched (20_memory.md R70). -/
theorem writeByte_reference_data (v : Byte) (s : State) (r : RefDevice) (hc : s.clkQ = false) (he : s.ceQ = true)
    (hd : s.device = .reference { r with phase := .writeData, clocks := 8, dataShift := 0 }) :
    (performAll (writeByte v) s).device = .reference { r with
      phase := .writeData, clocks := 16, dataShift := v, dio := some (v.getLsbD 7) } ∧
    (performAll (writeByte v) s).draws = s.draws := by
  constructor <;>
    simp [writeByte, bitOrder, writeBit, perform, Device.onDrive, Device.onClk, hd, hc, he, RefDevice.clkRise,
      RefDevice.clkFall]

/-- The bits the engine drives in a read frame are not latched (20_memory.md R72). -/
theorem writeByte_reference_ignored (v : Byte) (s : State) (r : RefDevice) (hc : s.clkQ = false) (he : s.ceQ = true)
    (hd : s.device = .reference { r with phase := .readData, clocks := 8 }) :
    (performAll (writeByte v) s).device = .reference { r with
      phase := .ignore, clocks := 16, dio := some (v.getLsbD 7) } ∧
    (performAll (writeByte v) s).draws = s.draws := by
  constructor <;>
    simp [writeByte, bitOrder, writeBit, perform, Device.onDrive, Device.onClk, hd, hc, he, RefDevice.clkRise,
      RefDevice.clkFall]

/-- In a read frame the Device presents the bits of the register (20_memory.md R69). -/
theorem readByte_reference (s : State) (r : RefDevice) (hc : s.clkQ = false) (he : s.ceQ = true)
    (hd : s.device = .reference { r with phase := .readData, clocks := 8 }) :
    (performAll readByte s).trace = s.trace ++ byteRead (r.regAt r.addrShift) ∧
    (performAll readByte s).tmp = { s.tmp with bitIndex := 7, acc := r.regAt r.addrShift } ∧
    (performAll readByte s).device = .reference { r with phase := .ignore, clocks := 16, dio := none } ∧
    (performAll readByte s).draws = s.draws + 8 := by
  have hreg : ∀ (x : RefDevice) (a : Byte), x.reg = r.reg → x.regAt a = r.regAt a := by
    intro x a h
    simp [RefDevice.regAt, h]
  simp [readByte_eq, readBit, perform, Device.onSample, Device.onClk, hd, hc, he, RefDevice.clkRise,
      RefDevice.clkFall, RefDevice.drives, byteRead, wireOrder_eq, bitRead, hreg, accumulate_first s.tmp.acc]

/-- In a wrong-direction read frame the Device latches free bits, and no register changes yet (20_memory.md R72). -/
theorem readByte_reference_wrong (s : State) (r : RefDevice) (hc : s.clkQ = false) (he : s.ceQ = true)
    (hd : s.device = .reference { r with phase := .writeData, clocks := 8 }) :
    ∃ v, (performAll readByte s).device = .reference { r with
      phase := .writeData, clocks := 16, dataShift := v, dio := none } := by
  simp [readByte_eq, readBit, perform, Device.onSample, Device.onClk, hd, hc, he, RefDevice.clkRise,
      RefDevice.clkFall, RefDevice.drives]

/-! ### The reference Device: one frame -/

/-- A write frame at an even address on the reference Device (20_memory.md R70). -/
theorem writeFrame_reference (a v : Byte) (s : State) (r : RefDevice) (hc : s.clkQ = false) (he : s.ceQ = false)
    (hd : s.device = .reference r) (ha : a.getLsbD 0 = false) :
    ∃ r', (performAll (writeFrame a v) s).device = .reference r' ∧ r'.reg = Memory.guarded r.reg a v := by
  obtain ⟨d1, -⟩ := writeByte_reference_addr a (setCe true s) { r with dataShift := 0 } (by simpa using hc) (by simp)
    (by simp [hd, he, Device.onCe, RefDevice.ceRise])
  obtain ⟨-, c1, e1, -, -⟩ := writeByte_effect a (setCe true s)
  obtain ⟨d2, -⟩ := writeByte_reference_data v (performAll (writeByte a) (setCe true s))
    { r with addrShift := a, dio := some (a.getLsbD 7) } c1 (by simp [e1]) (by rw [d1, ha]; rfl)
  obtain ⟨-, c2, e2, -, -⟩ := writeByte_effect v (performAll (writeByte a) (setCe true s))
  simp only [writeFrame, performAll_cons, performAll_append, performAll_nil, perform_ce, setCe_device, d2, e2, e1,
    setCe_ceQ, Device.onCe]
  refine ⟨_, rfl, ?_⟩
  simp only [RefDevice.ceFall, RefDevice.accepts, RefDevice.regAt, Reg.waddr, Memory.guarded]
  have h8 : regIndex 0x8E = 0x8E := by decide
  simp only [h8]
  simp only [true_and, Bool.or_eq_true, beq_iff_eq]
  split <;> rfl

/-- A write frame at an odd address changes no register of the reference Device (20_memory.md R72). -/
theorem writeFrame_reference_odd (a v : Byte) (s : State) (r : RefDevice) (hc : s.clkQ = false) (he : s.ceQ = false)
    (hd : s.device = .reference r) (ha : a.getLsbD 0 = true) :
    ∃ r', (performAll (writeFrame a v) s).device = .reference r' ∧ r'.reg = r.reg := by
  obtain ⟨d1, -⟩ := writeByte_reference_addr a (setCe true s) { r with dataShift := 0 } (by simpa using hc) (by simp)
    (by simp [hd, he, Device.onCe, RefDevice.ceRise])
  obtain ⟨-, c1, e1, -, -⟩ := writeByte_effect a (setCe true s)
  obtain ⟨d2, -⟩ := writeByte_reference_ignored v (performAll (writeByte a) (setCe true s))
    { r with addrShift := a, dataShift := 0, dio := some (a.getLsbD 7) } c1 (by simp [e1]) (by rw [d1, ha]; rfl)
  obtain ⟨-, c2, e2, -, -⟩ := writeByte_effect v (performAll (writeByte a) (setCe true s))
  simp only [writeFrame, performAll_cons, performAll_append, performAll_nil, perform_ce, setCe_device, d2, e2, e1,
    setCe_ceQ, Device.onCe]
  exact ⟨_, rfl, by simp [RefDevice.ceFall]⟩

/-- A read frame at an odd address on the reference Device returns the register and changes none (20_memory.md R69). -/
theorem readFrame_reference (a : Byte) (s : State) (r : RefDevice) (hc : s.clkQ = false) (he : s.ceQ = false)
    (hd : s.device = .reference r) (ha : a.getLsbD 0 = true) :
    (performAll (readFrame a) s).trace = s.trace ++ frameRead a (r.regAt a) ∧
    (performAll (readFrame a) s).tmp = { s.tmp with bitIndex := 7, acc := r.regAt a } ∧
    ∃ r', (performAll (readFrame a) s).device = .reference r' ∧ r'.reg = r.reg := by
  obtain ⟨d1, -⟩ := writeByte_reference_addr a (setCe true s) { r with dataShift := 0 } (by simpa using hc) (by simp)
    (by simp [hd, he, Device.onCe, RefDevice.ceRise])
  obtain ⟨t1, c1, e1, -, m1⟩ := writeByte_effect a (setCe true s)
  obtain ⟨t2, m2, d2, -⟩ := readByte_reference (performAll (writeByte a) (setCe true s))
    { r with addrShift := a, dataShift := 0, dio := some (a.getLsbD 7) } c1 (by simp [e1]) (by rw [d1, ha]; rfl)
  have hr : ∀ x : RefDevice, x.reg = r.reg → x.regAt a = r.regAt a := fun x h => by simp [RefDevice.regAt, h]
  obtain ⟨-, -, -, e2, -, -⟩ := readByte_effect (performAll (writeByte a) (setCe true s))
  simp only [readFrame, performAll_cons, performAll_append, performAll_nil, perform_ce, setCe_device, setCe_trace,
    setCe_tmp, d2, t2, m2, t1, m1, e2, e1, setCe_ceQ, Device.onCe]
  refine ⟨?_, ?_, _, rfl, by simp [RefDevice.ceFall]⟩
  · simp [frameRead, RefDevice.regAt]
  · simp [RefDevice.regAt]

/-- A read frame at an even address on the reference Device changes no other register (20_memory.md R72). -/
theorem readFrame_reference_even (a : Byte) (s : State) (r : RefDevice) (hc : s.clkQ = false) (he : s.ceQ = false)
    (hd : s.device = .reference r) (ha : a.getLsbD 0 = false) :
    ∃ r' v, (performAll (readFrame a) s).device = .reference r' ∧ r'.reg = Memory.guarded r.reg a v := by
  obtain ⟨d1, -⟩ := writeByte_reference_addr a (setCe true s) { r with dataShift := 0 } (by simpa using hc) (by simp)
    (by simp [hd, he, Device.onCe, RefDevice.ceRise])
  obtain ⟨t1, c1, e1, -, m1⟩ := writeByte_effect a (setCe true s)
  obtain ⟨v, d2⟩ := readByte_reference_wrong (performAll (writeByte a) (setCe true s))
    { r with addrShift := a, dataShift := 0, dio := some (a.getLsbD 7) } c1 (by simp [e1]) (by rw [d1, ha]; rfl)
  obtain ⟨-, -, -, e2, -, -⟩ := readByte_effect (performAll (writeByte a) (setCe true s))
  simp only [readFrame, performAll_cons, performAll_append, performAll_nil, perform_ce, setCe_device, d2, e2, e1,
    setCe_ceQ, Device.onCe]
  refine ⟨_, v, rfl, ?_⟩
  simp only [RefDevice.ceFall, RefDevice.accepts, RefDevice.regAt, Reg.waddr, Memory.guarded]
  have h8 : regIndex 0x8E = 0x8E := by decide
  simp only [h8]
  simp only [true_and, Bool.or_eq_true, beq_iff_eq]
  split <;> rfl

/-- Byte transfers outside a frame reach no register (20_memory.md R71). -/
theorem performAll_outside_frame (ps : List Prim) (hps : ∀ p ∈ ps, ∀ level, p ≠ .ce level) (s : State)
    (he : s.ceQ = false) :
    (performAll ps s).ceQ = false ∧ (performAll ps s).device.registers = s.device.registers := by
  induction ps generalizing s with
  | nil => exact ⟨he, rfl⟩
  | cons p ps ih =>
    have h1 : (perform p s).ceQ = false ∧ (perform p s).device.registers = s.device.registers := by
      cases p with
      | clk level => cases hd : s.device <;> simp [perform, he, hd, Device.onClk, Device.registers]
      | ce level => exact absurd rfl (hps _ List.mem_cons_self level)
      | drive i level => cases hd : s.device <;> simp [perform, he, hd, Device.onDrive, Device.registers]
      | sample i =>
        cases hd : s.device with
        | unspecified levels => cases levels <;> simp [perform, he, hd, Device.onSample, Device.registers]
        | reference r => simp [perform, he, hd, Device.onSample, Device.registers]
        | unpowered r => simp [perform, he, hd, Device.onSample, Device.registers]
    obtain ⟨h2, h3⟩ := ih (fun q hq => hps q (List.mem_cons_of_mem _ hq)) (perform p s) h1.1
    exact ⟨h2, h3.trans h1.2⟩

/-! ### What the edges keep (20_memory.md R67 to R71) -/

/-- Every edge keeps the canonical form of the register file. -/
theorem RefDevice.wf_ceFall {r : RefDevice} (h : Memory.wf r.reg) : Memory.wf r.ceFall.reg := by
  unfold RefDevice.ceFall
  split
  · exact Memory.wf_write _ h (regIndex_lt _).1 (regIndex_lt _).2
  · exact h

@[simp] theorem RefDevice.ceRise_reg (r : RefDevice) : r.ceRise.reg = r.reg := rfl

@[simp] theorem RefDevice.clkRise_reg (r : RefDevice) (level : Bool) : (r.clkRise level).reg = r.reg := by
  unfold RefDevice.clkRise
  split <;> first | rfl | (split <;> rfl)

@[simp] theorem RefDevice.clkFall_reg (r : RefDevice) : r.clkFall.reg = r.reg := by
  unfold RefDevice.clkFall
  split <;> rfl

theorem RefDevice.inv_ceRise {r : RefDevice} {ce : Bool} (h : r.Inv ce) : r.ceRise.Inv true :=
  ⟨h.1, nofun, fun _ => Nat.zero_lt_succ 7, nofun, nofun⟩

theorem RefDevice.inv_ceFall {r : RefDevice} {ce : Bool} (h : r.Inv ce) : r.ceFall.Inv false := by
  have hp : r.ceFall.phase = .off := by
    unfold RefDevice.ceFall
    split <;> rfl
  exact ⟨RefDevice.wf_ceFall h.1, fun _ => hp, by simp [hp], by simp [hp], by simp [hp]⟩

theorem RefDevice.inv_clkFall {r : RefDevice} (h : r.Inv true) : r.clkFall.Inv true := by
  unfold RefDevice.clkFall
  split
  · exact ⟨h.1, nofun, nofun, nofun, nofun⟩
  · exact h

theorem RefDevice.inv_clkRise {r : RefDevice} (h : r.Inv true) (level : Bool) : (r.clkRise level).Inv true := by
  obtain ⟨hwf, -, ha, hr, hw⟩ := h
  unfold RefDevice.clkRise
  cases hp : r.phase with
  | off => exact ⟨hwf, nofun, by simp [hp], by simp [hp], by simp [hp]⟩
  | ignore => exact ⟨hwf, nofun, by simp [hp], by simp [hp], by simp [hp]⟩
  | addr =>
    have h8 := ha hp
    by_cases h7 : r.clocks + 1 = 8
    · by_cases hb : (putBit r.addrShift r.clocks level).getLsbD 0 = true
      · refine ⟨hwf, nofun, ?_, ?_, ?_⟩ <;> simp_all
      · refine ⟨hwf, nofun, ?_, ?_, ?_⟩ <;> simp_all
    · refine ⟨hwf, nofun, ?_, ?_, ?_⟩ <;> simp_all
      omega
  | readData =>
    obtain ⟨h1, h2, h3⟩ := hr hp
    dsimp only
    split
    · exact ⟨hwf, nofun, by simp, fun _ => ⟨by simp; omega, by simp; omega, h3⟩, by simp⟩
    · exact ⟨hwf, nofun, by simp [hp], fun _ => ⟨h1, h2, h3⟩, by simp [hp]⟩
  | writeData =>
    obtain ⟨h1, h2, h3⟩ := hw hp
    dsimp only
    split
    · exact ⟨hwf, nofun, by simp, by simp, fun _ => ⟨by simp; omega, by simp; omega, h3⟩⟩
    · exact ⟨hwf, nofun, by simp [hp], by simp [hp], fun _ => ⟨h1, h2, h3⟩⟩

/-- What a write in a frame at an even address reads back as (20_memory.md R70). -/
theorem Memory.read_guarded (m : Memory) (a v : Byte) (ha : a.getLsbD 0 = false) (b : Nat) :
    Memory.read (Memory.guarded m a v) b =
      if b = a.toNat ∧ (a = 0x8E ∨ Memory.read m 0x8E = 0x00) then v else Memory.read m b := by
  have hi : regIndex a = a.toNat := by
    revert ha a
    decide
  unfold Memory.guarded
  by_cases hg : a = 0x8E ∨ Memory.read m 0x8E = 0x00
  · rw [if_pos hg, hi]
    by_cases hb : b = a.toNat
    · rw [if_pos ⟨hb, hg⟩, hb, Memory.read_write_self]
    · rw [if_neg (fun h => hb h.1), Memory.read_write_ne _ _ hb]
  · rw [if_neg hg, if_neg (fun h => hg h.2)]

/-- A guarded write at an even address on the reference Device stores its byte and leaves protection off, whether it was on
or off (42_writeguard.md R136 to R138). -/
theorem guardedWrite_reference (a v : Byte) (s : State) (r : RefDevice) (hc : s.clkQ = false) (he : s.ceQ = false)
    (hd : s.device = .reference r) (ha : a.getLsbD 0 = false) :
    ∃ r', (performAll (guardedWrite a v) s).device = .reference r' ∧ ∀ b : Nat, Memory.read r'.reg b =
      if b = 0x8E then 0x00 else if b = a.toNat then v else Memory.read r.reg b := by
  simp only [guardedWrite, performAll_append, Reg.waddr]
  obtain ⟨r1, d1, m1⟩ := writeFrame_reference 0x8E 0 s r hc he hd rfl
  obtain ⟨-, c1, e1, -, -⟩ := writeFrame_effect 0x8E 0 s
  obtain ⟨r2, d2, m2⟩ := writeFrame_reference a v _ r1 c1 e1 d1 ha
  obtain ⟨-, c2, e2, -, -⟩ := writeFrame_effect a v (performAll (writeFrame 0x8E 0) s)
  obtain ⟨r3, d3, m3⟩ := writeFrame_reference 0x8E 0 _ r2 c2 e2 d2 rfl
  refine ⟨r3, d3, fun b => ?_⟩
  have h8 : BitVec.toNat (0x8E : Byte) = 0x8E := rfl
  have g : ∀ m : Memory, ∀ b, Memory.read (Memory.guarded m 0x8E 0x00) b = if b = 0x8E then 0x00 else Memory.read m b := by
    intro m b
    rw [Memory.read_guarded m 0x8E 0x00 rfl b, h8]
    simp
  rw [m3, g, m2, Memory.read_guarded _ _ _ ha, m1, g, g]
  simp only [if_true, or_true, and_true]
  by_cases hb : b = 0x8E <;> simp [hb]

/-- Three field writes in a row on the reference Device: the body of SETYMD and of SETHMS. -/
theorem fieldWrites_reference (f g h : Field) (x y z : Word) (s : State) (r : RefDevice) (hc : s.clkQ = false)
    (he : s.ceQ = false) (hd : s.device = .reference r) :
    ∃ r', (performAll (fieldWrite f x ++ fieldWrite g y ++ fieldWrite h z) s).device = .reference r' ∧
      (performAll (fieldWrite f x ++ fieldWrite g y ++ fieldWrite h z) s).clkQ = false ∧
      (performAll (fieldWrite f x ++ fieldWrite g y ++ fieldWrite h z) s).ceQ = false ∧
      ∀ b : Nat, Memory.read r'.reg b =
        if b = 0x8E then 0x00 else if b = (waddr h).toNat then fieldByte h z
        else if b = (waddr g).toNat then fieldByte g y else if b = (waddr f).toNat then fieldByte f x
        else Memory.read r.reg b := by
  have even : ∀ f : Field, (waddr f).getLsbD 0 = false := fun f => by cases f <;> rfl
  simp only [performAll_append, fieldWrite]
  obtain ⟨r1, d1, m1⟩ := guardedWrite_reference (waddr f) (fieldByte f x) s r hc he hd (even f)
  obtain ⟨-, c1, e1, -⟩ := guardedWrite_effect (waddr f) (fieldByte f x) s
  obtain ⟨r2, d2, m2⟩ := guardedWrite_reference (waddr g) (fieldByte g y) _ r1 c1 e1 d1 (even g)
  obtain ⟨-, c2, e2, -⟩ := guardedWrite_effect (waddr g) (fieldByte g y)
    (performAll (guardedWrite (waddr f) (fieldByte f x)) s)
  obtain ⟨r3, d3, m3⟩ := guardedWrite_reference (waddr h) (fieldByte h z) _ r2 c2 e2 d2 (even h)
  obtain ⟨-, c3, e3, -⟩ := guardedWrite_effect (waddr h) (fieldByte h z)
    (performAll (guardedWrite (waddr g) (fieldByte g y)) (performAll (guardedWrite (waddr f) (fieldByte f x)) s))
  refine ⟨r3, d3, c3, e3, fun b => ?_⟩
  rw [m3, m2, m1]
  by_cases hb : b = 0x8E <;> simp [hb]

/-! ### The unpowered Device (20_memory.md R73) -/

/-- No primitive changes an unpowered Device, and every sample of one is 1. -/
theorem perform_unpowered (p : Prim) (s : State) (r : RefDevice) (hd : s.device = .unpowered r) :
    (perform p s).device = .unpowered r := by
  cases p <;> simp [perform, hd, Device.onClk, Device.onCe, Device.onDrive, Device.onSample]

theorem performAll_unpowered (ps : List Prim) (s : State) (r : RefDevice) (hd : s.device = .unpowered r) :
    (performAll ps s).device = .unpowered r := by
  induction ps generalizing s with
  | nil => exact hd
  | cons p ps ih => exact ih _ (perform_unpowered p s r hd)

/-- An unpowered Device reads as all ones. -/
theorem readByte_unpowered (s : State) (r : RefDevice) (hd : s.device = .unpowered r) :
    (performAll readByte s).tmp = { s.tmp with bitIndex := 7, acc := 0xFF } := by
  simp [readByte_eq, readBit, perform, Device.onSample, Device.onClk, hd, accumulate_first s.tmp.acc]
  decide

/-- A read frame on an unpowered Device returns 0xFF. -/
theorem readFrame_unpowered (a : Byte) (s : State) (r : RefDevice) (hd : s.device = .unpowered r) :
    (performAll (readFrame a) s).tmp.acc = 0xFF := by
  have h := readByte_unpowered (performAll (writeByte a) (setCe true s)) r
    (performAll_unpowered _ _ r (perform_unpowered (.ce true) s r hd))
  simp only [readFrame, performAll_cons, performAll_append, performAll_nil, perform_ce, setCe_tmp, h]

end Sys2Proof.Machine
end

