-- ==== Sys2Proof/Laws/PerInstr.lean ====
section
/-!
SUPPORT. One statement for every instruction: its raw word lies in its row of spec/opcode_table.json.
-/

namespace Sys2Proof.Laws.TableRow

/-- A row of spec/opcode_table.json: its format (CMD or WIREADDR), its mask and its match, on the opcode or the address
byte. -/
structure Row where
  command : Bool
  mask : Byte
  pattern : Byte

/-- The row of an instruction. -/
def row : Instr → Row
  | .wbyte _ => ⟨true, 0x1F, 0x01⟩
  | .rbyte => ⟨true, 0x1F, 0x02⟩
  | .rreg _ => ⟨true, 0x1F, 0x03⟩
  | .wreg _ _ => ⟨true, 0x1F, 0x04⟩
  | .gwrite _ _ => ⟨true, 0x1F, 0x05⟩
  | .enc _ => ⟨true, 0x1F, 0x06⟩
  | .dec _ => ⟨true, 0x1F, 0x07⟩
  | .clamp _ _ => ⟨true, 0x1F, 0x08⟩
  | .wrap _ _ => ⟨true, 0x1F, 0x09⟩
  | .getf _ => ⟨true, 0x1F, 0x0A⟩
  | .setymd _ _ _ => ⟨true, 0x1F, 0x0B⟩
  | .sethms _ _ _ => ⟨true, 0x1F, 0x0C⟩
  | .setdt _ _ _ _ _ _ _ => ⟨true, 0x1F, 0x0D⟩
  | .start => ⟨true, 0x1F, 0x0E⟩
  | .pause => ⟨true, 0x1F, 0x0F⟩
  | .reserved00 => ⟨true, 0x1F, 0x00⟩
  | .reserved10to1F _ => ⟨true, 0x10, 0x10⟩
  | .frameWrSecond _ => ⟨false, 0xFF, 0x80⟩
  | .frameRdSecond => ⟨false, 0xFF, 0x81⟩
  | .frameWrMinute _ => ⟨false, 0xFF, 0x82⟩
  | .frameRdMinute => ⟨false, 0xFF, 0x83⟩
  | .frameWrHour _ => ⟨false, 0xFF, 0x84⟩
  | .frameRdHour => ⟨false, 0xFF, 0x85⟩
  | .frameWrDay _ => ⟨false, 0xFF, 0x86⟩
  | .frameRdDay => ⟨false, 0xFF, 0x87⟩
  | .frameWrMonth _ => ⟨false, 0xFF, 0x88⟩
  | .frameRdMonth => ⟨false, 0xFF, 0x89⟩
  | .frameWrWeekday _ => ⟨false, 0xFF, 0x8A⟩
  | .frameRdWeekday => ⟨false, 0xFF, 0x8B⟩
  | .frameWrYear _ => ⟨false, 0xFF, 0x8C⟩
  | .frameRdYear => ⟨false, 0xFF, 0x8D⟩
  | .frameWrWp _ => ⟨false, 0xFF, 0x8E⟩
  | .frameRdWp => ⟨false, 0xFF, 0x8F⟩
  | .frameWrControl _ => ⟨false, 0xFF, 0x90⟩
  | .frameRdControl => ⟨false, 0xFF, 0x91⟩
  | .frameWrRamBase _ => ⟨false, 0xFF, 0xC0⟩
  | .frameRdRamBase => ⟨false, 0xFF, 0xC1⟩
  | .frameWriteAny _ _ => ⟨false, 0x01, 0x00⟩
  | .frameReadAny _ => ⟨false, 0x01, 0x01⟩

/-- The format of a raw word. -/
def isCommand : Request → Bool
  | .command _ => true
  | .frame _ _ => false

/-- The byte of a raw word that the table's masks are on: the opcode or the address byte. -/
def lead : Request → Byte
  | .command c => c.op.setWidth 8
  | .frame addr _ => addr

/-- The raw word of the instruction has the format of its row and matches the row's mask and match. -/
def Statement (i : Instr) : Prop :=
  i.wf = true → isCommand (encode i) = (row i).command ∧ lead (encode i) &&& (row i).mask = (row i).pattern

theorem wbyte (value : Byte) : Statement (.wbyte value) := by simp [Statement, isCommand, lead, row, encode]

theorem rbyte : Statement .rbyte := by simp [Statement, isCommand, lead, row, encode]

theorem rreg (addr : Byte) : Statement (.rreg addr) := by simp [Statement, isCommand, lead, row, encode]

theorem wreg (addr : Byte) (value : Byte) : Statement (.wreg addr value) := by simp [Statement, isCommand, lead, row, encode]

theorem gwrite (addr : Byte) (value : Byte) : Statement (.gwrite addr value) := by simp [Statement, isCommand, lead, row, encode]

theorem enc (n : Word) : Statement (.enc n) := by simp [Statement, isCommand, lead, row, encode]

theorem dec (byte : Byte) : Statement (.dec byte) := by simp [Statement, isCommand, lead, row, encode]

theorem clamp (field : BitVec 3) (d : Word) : Statement (.clamp field d) := by simp [Statement, isCommand, lead, row, encode]

theorem wrap (field : BitVec 3) (x : Word) : Statement (.wrap field x) := by simp [Statement, isCommand, lead, row, encode]

theorem getf (field : BitVec 3) : Statement (.getf field) := by simp [Statement, isCommand, lead, row, encode]

theorem setymd (year : Word) (month : Word) (day : Word) : Statement (.setymd year month day) := by simp [Statement, isCommand, lead, row, encode]

theorem sethms (hour : Word) (minute : Word) (second : Word) : Statement (.sethms hour minute second) := by simp [Statement, isCommand, lead, row, encode]

theorem setdt (year : Word) (month : Word) (day : Word) (weekday : Word) (hour : Word) (minute : Word) (second : Word) : Statement (.setdt year month day weekday hour minute second) := by simp [Statement, isCommand, lead, row, encode]

theorem start : Statement .start := by simp [Statement, isCommand, lead, row, encode]

theorem pause : Statement .pause := by simp [Statement, isCommand, lead, row, encode]

theorem reserved00 : Statement .reserved00 := by simp [Statement, isCommand, lead, row, encode]

theorem reserved10to1F (low : BitVec 4) : Statement (.reserved10to1F low) := by
  intro _
  refine ⟨rfl, ?_⟩
  revert low
  decide

theorem frameWrSecond (data : Byte) : Statement (.frameWrSecond data) := by simp [Statement, isCommand, lead, row, encode]

theorem frameRdSecond : Statement .frameRdSecond := by simp [Statement, isCommand, lead, row, encode]

theorem frameWrMinute (data : Byte) : Statement (.frameWrMinute data) := by simp [Statement, isCommand, lead, row, encode]

theorem frameRdMinute : Statement .frameRdMinute := by simp [Statement, isCommand, lead, row, encode]

theorem frameWrHour (data : Byte) : Statement (.frameWrHour data) := by simp [Statement, isCommand, lead, row, encode]

theorem frameRdHour : Statement .frameRdHour := by simp [Statement, isCommand, lead, row, encode]

theorem frameWrDay (data : Byte) : Statement (.frameWrDay data) := by simp [Statement, isCommand, lead, row, encode]

theorem frameRdDay : Statement .frameRdDay := by simp [Statement, isCommand, lead, row, encode]

theorem frameWrMonth (data : Byte) : Statement (.frameWrMonth data) := by simp [Statement, isCommand, lead, row, encode]

theorem frameRdMonth : Statement .frameRdMonth := by simp [Statement, isCommand, lead, row, encode]

theorem frameWrWeekday (data : Byte) : Statement (.frameWrWeekday data) := by simp [Statement, isCommand, lead, row, encode]

theorem frameRdWeekday : Statement .frameRdWeekday := by simp [Statement, isCommand, lead, row, encode]

theorem frameWrYear (data : Byte) : Statement (.frameWrYear data) := by simp [Statement, isCommand, lead, row, encode]

theorem frameRdYear : Statement .frameRdYear := by simp [Statement, isCommand, lead, row, encode]

theorem frameWrWp (data : Byte) : Statement (.frameWrWp data) := by simp [Statement, isCommand, lead, row, encode]

theorem frameRdWp : Statement .frameRdWp := by simp [Statement, isCommand, lead, row, encode]

theorem frameWrControl (data : Byte) : Statement (.frameWrControl data) := by simp [Statement, isCommand, lead, row, encode]

theorem frameRdControl : Statement .frameRdControl := by simp [Statement, isCommand, lead, row, encode]

theorem frameWrRamBase (data : Byte) : Statement (.frameWrRamBase data) := by simp [Statement, isCommand, lead, row, encode]

theorem frameRdRamBase : Statement .frameRdRamBase := by simp [Statement, isCommand, lead, row, encode]

theorem frameWriteAny (addr : Byte) (data : Byte) : Statement (.frameWriteAny addr data) := by
  intro h
  simp only [Instr.wf, Bool.and_eq_true, Bool.not_eq_true'] at h
  refine ⟨rfl, ?_⟩
  have key : ∀ a : Byte, a.getLsbD 0 = false → a &&& 0x01 = 0x00 := by decide
  exact key addr h.1

theorem frameReadAny (addr : Byte) : Statement (.frameReadAny addr) := by
  intro h
  simp only [Instr.wf, Bool.and_eq_true] at h
  refine ⟨rfl, ?_⟩
  have key : ∀ a : Byte, a.getLsbD 0 = true → a &&& 0x01 = 0x01 := by decide
  exact key addr h.1

end Sys2Proof.Laws.TableRow
end

