-- ==== Sys2Proof/Laws/Step.lean ====
section
/-!
SUPPORT. What a step can do, said once: what an acceptance does, what a step does, and that every command's primitives keep
the framing of 70_reset_and_hazards.md R241.
-/

namespace Sys2Proof.Machine

/-! ### The framing of the byte transfers and frames -/

/-- Performed from rest, the primitives keep the framing and end at rest. -/
def Framed (ps : List Prim) : Prop := ∀ m : WireMonitor, m.atRest → (watch m (ps.map Prim.event)).atRest

theorem watch_append (m : WireMonitor) (xs ys : List Event) : watch m (xs ++ ys) = watch (watch m xs) ys :=
  List.foldl_append ..

theorem watch_concat (m : WireMonitor) (xs : List Event) (e : Event) : watch m (xs ++ [e]) = (watch m xs).see e :=
  watch_append m xs [e]

@[simp] theorem watch_cons (m : WireMonitor) (e : Event) (xs : List Event) : watch m (e :: xs) = watch (m.see e) xs := rfl

@[simp] theorem watch_nil (m : WireMonitor) : watch m [] = m := rfl

theorem Framed.append {ps qs : List Prim} (hp : Framed ps) (hq : Framed qs) : Framed (ps ++ qs) := by
  intro m h
  rw [List.map_append, watch_append]
  exact hq _ (hp m h)

/-- A byte written outside a frame leaves the monitor as it was. -/
theorem framed_writeByte (v : Byte) : Framed (writeByte v) := by
  rintro ⟨clk, ce, pulses, kept⟩ ⟨h1, h2, h3⟩
  cases h1; cases h2; cases h3
  simp [writeByte, bitOrder, writeBit, Prim.event, WireMonitor.see, WireMonitor.atRest]

theorem framed_readByte : Framed readByte := by
  rintro ⟨clk, ce, pulses, kept⟩ ⟨h1, h2, h3⟩
  cases h1; cases h2; cases h3
  simp [readByte, bitOrder, readBit, Prim.event, WireMonitor.see, WireMonitor.atRest]

/-- A byte in a frame is eight pulses. -/
theorem watch_writeByte_in_frame (v : Byte) (pulses : Nat) (h : pulses ≤ 8) :
    watch ⟨false, true, pulses, true⟩ ((writeByte v).map Prim.event) = ⟨false, true, pulses + 8, true⟩ := by
  simp [writeByte, bitOrder, writeBit, Prim.event, WireMonitor.see]
  omega

theorem watch_readByte_in_frame (pulses : Nat) (h : pulses ≤ 8) :
    watch ⟨false, true, pulses, true⟩ (readByte.map Prim.event) = ⟨false, true, pulses + 8, true⟩ := by
  simp [readByte, bitOrder, readBit, Prim.event, WireMonitor.see]
  omega

theorem framed_writeFrame (a v : Byte) : Framed (writeFrame a v) := by
  rintro ⟨clk, ce, pulses, kept⟩ ⟨h1, h2, h3⟩
  cases h1; cases h2; cases h3
  have e : (WireMonitor.see ⟨false, false, pulses, true⟩ (Prim.ce true).event) = ⟨false, true, 0, true⟩ := rfl
  rw [writeFrame, List.map_cons, watch_cons, e, List.map_append, List.map_append, watch_append, watch_append,
    watch_writeByte_in_frame _ _ (by omega), watch_writeByte_in_frame _ _ (by omega)]
  exact ⟨rfl, rfl, rfl⟩

theorem framed_readFrame (a : Byte) : Framed (readFrame a) := by
  rintro ⟨clk, ce, pulses, kept⟩ ⟨h1, h2, h3⟩
  cases h1; cases h2; cases h3
  have e : (WireMonitor.see ⟨false, false, pulses, true⟩ (Prim.ce true).event) = ⟨false, true, 0, true⟩ := rfl
  rw [readFrame, List.map_cons, watch_cons, e, List.map_append, List.map_append, watch_append, watch_append,
    watch_writeByte_in_frame _ _ (by omega), watch_readByte_in_frame _ (by omega)]
  exact ⟨rfl, rfl, rfl⟩

theorem framed_guardedWrite (a v : Byte) : Framed (guardedWrite a v) :=
  ((framed_writeFrame _ _).append (framed_writeFrame _ _)).append (framed_writeFrame _ _)

theorem framed_setDateBody (y m d : Word) : Framed (setDateBody y m d) :=
  ((framed_guardedWrite _ _).append (framed_guardedWrite _ _)).append (framed_guardedWrite _ _)

theorem framed_setTimeBody (h m s : Word) : Framed (setTimeBody h m s) :=
  ((framed_guardedWrite _ _).append (framed_guardedWrite _ _)).append (framed_guardedWrite _ _)

/-! ### Acceptance -/

/-- What the acceptance of an instruction by a ready engine can do: raise a fault, complete at once, or line up
primitives. -/
theorem exec_cases (i : Instr) :
    ∃ accept : State → State, (∀ s, exec i s = .next (present i accept s)) ∧ ∀ s,
      (∃ cause info, accept s = raise cause info s) ∨
      (∃ v status, accept s = completeWith v status s ∧ (status = .outOfRange → s.strict = true)) ∨
      (∃ ps after, accept s = acceptAs i ps after s ∧ ps ≠ [] ∧ Framed ps) := by
  have wf : ∀ a v after s, ∃ ps after', acceptAs i (writeFrame a v) after s = acceptAs i ps after' s ∧ ps ≠ [] ∧ Framed ps :=
    fun a v after s => ⟨_, _, rfl, by simp [writeFrame], framed_writeFrame a v⟩
  have rf : ∀ a after s, ∃ ps after', acceptAs i (readFrame a) after s = acceptAs i ps after' s ∧ ps ≠ [] ∧ Framed ps :=
    fun a after s => ⟨_, _, rfl, by simp [readFrame], framed_readFrame a⟩
  have len : ∀ {ps : List Prim} {n : Nat}, ps.length = n + 1 → ps ≠ [] := by
    rintro ps n h rfl
    cases h
  have field : ∀ code (accept : Field → State → State),
      (∀ f s, (∃ v status, accept f s = completeWith v status s ∧ (status = .outOfRange → s.strict = true)) ∨
        (∃ ps after, accept f s = acceptAs i ps after s ∧ ps ≠ [] ∧ Framed ps)) → ∀ s,
      (∃ cause info, withField code accept s = raise cause info s) ∨
      (∃ v status, withField code accept s = completeWith v status s ∧ (status = .outOfRange → s.strict = true)) ∨
      (∃ ps after, withField code accept s = acceptAs i ps after s ∧ ps ≠ [] ∧ Framed ps) := by
    intro code accept h s
    unfold withField
    split
    · exact .inr (h _ s)
    · exact .inl ⟨_, _, rfl⟩
  cases i with
  | wbyte v => exact ⟨_, fun _ => rfl, fun s => .inr (.inr ⟨_, _, rfl, len (length_writeByte v), framed_writeByte v⟩)⟩
  | rbyte => exact ⟨_, fun _ => rfl, fun s => .inr (.inr ⟨_, _, rfl, len length_readByte, framed_readByte⟩)⟩
  | rreg addr => exact ⟨_, fun _ => rfl, fun s => .inr (.inr (rf ..))⟩
  | wreg addr value => exact ⟨_, fun _ => rfl, fun s => .inr (.inr (wf ..))⟩
  | gwrite addr value =>
    exact ⟨_, fun _ => rfl, fun s => .inr (.inr ⟨_, _, rfl, len (length_guardedWrite ..), framed_guardedWrite _ _⟩)⟩
  | enc n =>
    refine ⟨_, fun _ => rfl, fun s => ?_⟩
    split
    · exact .inl ⟨_, _, rfl⟩
    · exact .inr (.inl ⟨_, _, rfl, nofun⟩)
  | dec byte => exact ⟨_, fun _ => rfl, fun s => .inr (.inl ⟨_, _, rfl, nofun⟩)⟩
  | clamp code d =>
    refine ⟨_, fun _ => rfl, field code _ fun f s => .inl ⟨_, _, rfl, fun h => ?_⟩⟩
    unfold readStatus at h
    split at h
    · simp_all
    · cases h
  | wrap code x => exact ⟨_, fun _ => rfl, field code _ fun f s => .inl ⟨_, _, rfl, nofun⟩⟩
  | getf code => exact ⟨_, fun _ => rfl, field code _ fun f s => .inr (rf ..)⟩
  | setymd y m d =>
    exact ⟨_, fun _ => rfl, fun s => .inr (.inr ⟨_, _, rfl, len (length_setDateBody ..), framed_setDateBody _ _ _⟩)⟩
  | sethms h m s =>
    exact ⟨_, fun _ => rfl, fun s => .inr (.inr ⟨_, _, rfl, len (length_setTimeBody ..), framed_setTimeBody _ _ _⟩)⟩
  | setdt y m d wd h mi sec =>
    refine ⟨_, fun _ => rfl, fun s => .inr (.inr ⟨_, _, rfl, ?_, (framed_setDateBody _ _ _).append (framed_setTimeBody _ _ _)⟩)⟩
    exact len (n := 899) (by simp)
  | start => exact ⟨_, fun _ => rfl, fun s => .inr (.inr (rf ..))⟩
  | pause => exact ⟨_, fun _ => rfl, fun s => .inr (.inr (rf ..))⟩
  | reserved00 => exact ⟨_, fun _ => rfl, fun s => .inl ⟨_, _, rfl⟩⟩
  | reserved10to1F low => exact ⟨_, fun _ => rfl, fun s => .inl ⟨_, _, rfl⟩⟩
  | frameWrSecond _ | frameWrMinute _ | frameWrHour _ | frameWrDay _ | frameWrMonth _ | frameWrWeekday _
  | frameWrYear _ | frameWrWp _ | frameWrControl _ | frameWrRamBase _ | frameWriteAny _ _ =>
    exact ⟨_, fun _ => rfl, fun s => .inr (.inr (wf ..))⟩
  | frameRdSecond | frameRdMinute | frameRdHour | frameRdDay | frameRdMonth | frameRdWeekday
  | frameRdYear | frameRdWp | frameRdControl | frameRdRamBase | frameReadAny _ =>
    exact ⟨_, fun _ => rfl, fun s => .inr (.inr (rf ..))⟩

/-! ### One step -/

/-- What a step can do, `rest` being the inputs it leaves: advance with nothing presented, start a binding, or, with a word
presented, ignore it, record `OVERLAP` and advance, raise a fault, complete at once, or line up primitives. -/
theorem step_cases {s t : State} (h : step s = .next t) :
    ∃ rest, rest = s.inputs.drop 1 ∧
      let q : State := { s with inputs := rest, done := false }
      t = advance q ∨
      (∃ strict, t = startBinding strict { s with inputs := rest }) ∨
      (∃ r, s.inputs = .present r :: rest ∧ s.fault = false ∧
        ((s.slot ≠ .idle ∧ ∃ info, t = advance (raise .overlap info q)) ∨
         (s.slot = .idle ∧
          ((∃ cause info, t = raise cause info q) ∨
           (∃ v status, t = completeWith v status q ∧ (status = .outOfRange → s.strict = true)) ∨
           (∃ ps after, t = acceptAs (decode r) ps after q ∧ ps ≠ [] ∧ Framed ps))))) := by
  unfold step at h
  split at h
  · rename_i he
    refine ⟨[], by simp [he], .inl ?_⟩
    injection h with h
    rw [← h, quietStep, ← he]
  · rename_i rest he
    injection h with h
    exact ⟨rest, by simp [he], .inl h.symm⟩
  · rename_i strict rest he
    injection h with h
    exact ⟨rest, by simp [he], .inr (.inl ⟨strict, h.symm⟩)⟩
  · rename_i r rest he
    refine ⟨rest, by simp [he], ?_⟩
    obtain ⟨accept, hx, ha⟩ := exec_cases (decode r)
    rw [hx] at h
    injection h with h
    subst h
    rcases present_cases (decode r) accept { s with inputs := rest } with ⟨hs, hf, e⟩ | ⟨hs, hf, e⟩ | ⟨-, e⟩
    · rw [e]
      refine .inr (.inr ⟨r, he, hf, .inr ⟨hs, ?_⟩⟩)
      exact ha { s with inputs := rest, done := false }
    · rw [e]
      exact .inr (.inr ⟨r, he, hf, .inl ⟨hs, _, rfl⟩⟩)
    · rw [e]
      exact .inl rfl

end Sys2Proof.Machine
end

