-- ==== Sys2Proof/Machine/Assembler.lean ====
section
/-!
DEFINITION. The assembly syntax of 30_encoding.md R89 and the pseudo-commands of R90: one line of text to one word of the
command port. It stands beside the machine and changes nothing of it (92_eei_decisions.md D25).
-/

namespace Sys2Proof.Machine

/-- Why a line is not a command. -/
inductive AsmError where
  /-- The mnemonic is none of 30_encoding.md R82 or R90. -/
  | unknownMnemonic
  /-- An operand is missing, or there is one too many. -/
  | operandCount
  /-- An operand is neither a number nor, in a field slot, a field name. -/
  | badOperand
  /-- A number does not fit a 16-bit slot: it is not representable on the port (93_implementation_defined.md). -/
  | tooLarge
  deriving DecidableEq, Repr

/-- Whether an operand is a number or a field, which may be written by name (30_encoding.md R89). -/
inductive AsmKind where
  | number | field
  deriving DecidableEq, Repr

/-- The space characters a line may hold. -/
def asmSpace (c : Char) : Bool := c == ' ' || c == '\t'

/-- A piece of text without the spaces around it. -/
def asmTrim (cs : List Char) : List Char := ((cs.dropWhile asmSpace).reverse.dropWhile asmSpace).reverse

/-- The pieces of a text between its commas. -/
def asmSplit : List Char → List (List Char)
  | [] => [[]]
  | c :: cs =>
    match asmSplit cs with
    | [] => [[c]]
    | piece :: pieces => if c = ',' then [] :: piece :: pieces else (c :: piece) :: pieces

/-- The value of a digit in a base. -/
def asmDigit (base : Nat) (c : Char) : Option Nat :=
  let v :=
    if '0' ≤ c ∧ c ≤ '9' then c.toNat - 48
    else if 'a' ≤ c ∧ c ≤ 'f' then c.toNat - 87
    else if 'A' ≤ c ∧ c ≤ 'F' then c.toNat - 55
    else base
  if v < base then some v else none

/-- The value of a string of digits after `acc`. -/
def asmDigits (base acc : Nat) : List Char → Option Nat
  | [] => some acc
  | c :: cs =>
    match asmDigit base c with
    | some v => asmDigits base (acc * base + v) cs
    | none => none

/-- "numbers are decimal or `0x` hexadecimal" (30_encoding.md R89). -/
def asmNumber : List Char → Option Nat
  | [] => none
  | '0' :: 'x' :: c :: cs => asmDigits 16 0 (c :: cs)
  | c :: cs => asmDigits 10 0 (c :: cs)

/-- "field operands are written by name" (30_encoding.md R89). -/
def asmFieldName (cs : List Char) : Option Field :=
  if cs = "second".toList then some .second
  else if cs = "minute".toList then some .minute
  else if cs = "hour".toList then some .hour
  else if cs = "day".toList then some .day
  else if cs = "month".toList then some .month
  else if cs = "year".toList then some .year
  else none

/-- One operand as its slot. -/
def asmSlot (kind : AsmKind) (cs : List Char) : Except AsmError Word :=
  match kind, asmFieldName cs with
  | .field, some f => .ok ((codeOfField f).setWidth 16)
  | _, _ =>
    match asmNumber cs with
    | none => .error .badOperand
    | some n => if n < 65536 then .ok (BitVec.ofNat 16 n) else .error .tooLarge

/-- The opcode and the operand kinds of a mnemonic (30_encoding.md R82). -/
def asmRow (cs : List Char) : Option (BitVec 5 × List AsmKind) :=
  if cs = "WBYTE".toList then some (0x01, [.number])
  else if cs = "RBYTE".toList then some (0x02, [])
  else if cs = "RREG".toList then some (0x03, [.number])
  else if cs = "WREG".toList then some (0x04, [.number, .number])
  else if cs = "GWRITE".toList then some (0x05, [.number, .number])
  else if cs = "ENC".toList then some (0x06, [.number])
  else if cs = "DEC".toList then some (0x07, [.number])
  else if cs = "CLAMP".toList then some (0x08, [.field, .number])
  else if cs = "WRAP".toList then some (0x09, [.field, .number])
  else if cs = "GETF".toList then some (0x0A, [.field])
  else if cs = "SETYMD".toList then some (0x0B, [.number, .number, .number])
  else if cs = "SETHMS".toList then some (0x0C, [.number, .number, .number])
  else if cs = "SETDT".toList then
    some (0x0D, [.number, .number, .number, .number, .number, .number, .number])
  else if cs = "START".toList then some (0x0E, [])
  else if cs = "PAUSE".toList then some (0x0F, [])
  else none

/-- The pseudo-commands, each one command (30_encoding.md R90). -/
def asmPseudo (cs : List Char) : Option Instr :=
  if cs = "UNPROTECT".toList then some (.wreg 0x8E 0x00)
  else if cs = "RSECRAW".toList then some (.rreg 0x81)
  else if cs = "GETSEC".toList then some (.getf (codeOfField .second))
  else if cs = "GETYEAR".toList then some (.getf (codeOfField .year))
  else none

/-- The slots of the operands, in slot order a0, a1, ... (30_encoding.md R89). -/
def asmSlots : List AsmKind → List (List Char) → Except AsmError (List Word)
  | [], [] => .ok []
  | kind :: kinds, piece :: pieces =>
    match asmSlot kind (asmTrim piece), asmSlots kinds pieces with
    | .ok w, .ok ws => .ok (w :: ws)
    | .error e, _ => .error e
    | _, .error e => .error e
  | _, _ => .error .operandCount

/-- Slots a0 to a6 from the front of a list; the rest are 0. -/
def wordOfSlots (op : BitVec 5) (ws : List Word) : CmdWord where
  op := op
  a0 := ws.getD 0 0
  a1 := ws.getD 1 0
  a2 := ws.getD 2 0
  a3 := ws.getD 3 0
  a4 := ws.getD 4 0
  a5 := ws.getD 5 0
  a6 := ws.getD 6 0

/-- Assemble one line: `MNEMONIC operand, operand, ...`, with `;` starting a comment (30_encoding.md R89). A line without a
mnemonic is no command. -/
def assemble (line : List Char) : Except AsmError (Option Request) :=
  let text := asmTrim (line.takeWhile (· ≠ ';'))
  let mnemonic := text.takeWhile (fun c => !asmSpace c)
  let operands := asmTrim (text.dropWhile (fun c => !asmSpace c))
  let pieces := if operands = [] then [] else asmSplit operands
  if mnemonic = [] then .ok none
  else
    match asmPseudo mnemonic, asmRow mnemonic with
    | some i, _ => if pieces = [] then .ok (some (encode i)) else .error .operandCount
    | none, some (op, kinds) =>
      match asmSlots kinds pieces with
      | .ok ws => .ok (some (.command (wordOfSlots op ws)))
      | .error e => .error e
    | none, none => .error .unknownMnemonic

end Sys2Proof.Machine
end

