-- ==== Sys2Proof/Tests/Slice0.lean ====
section
/-!
SUPPORT. The model's own tests. Every expected value comes from spec/: the encodings of 30_encoding.md, the rules named and
the vectors of 95_test_vectors.md. The last part holds a witness for the hypotheses of every obligation that has some.
-/

namespace Sys2Proof.Tests.Slice0

open Sys2Proof Sys2Proof.Machine

/-! ### Well-formedness: an ill-formed term for each check, refused -/

/-- An odd address is a read frame's. -/
theorem test_wf_refuses_odd_write : (Instr.frameWriteAny 0x93 0x00).wf = false := by decide

/-- An even address is a write frame's. -/
theorem test_wf_refuses_even_read : (Instr.frameReadAny 0x92).wf = false := by decide

/-- The map's write addresses have rows of their own. -/
theorem test_wf_refuses_named_write :
    (Instr.frameWriteAny 0x80 0x00).wf = false ∧ (Instr.frameWriteAny 0xC0 0x00).wf = false := by decide

/-- The map's read addresses have rows of their own. -/
theorem test_wf_refuses_named_read :
    (Instr.frameReadAny 0x81).wf = false ∧ (Instr.frameReadAny 0xC1).wf = false := by decide

theorem test_wf_accepts : (Instr.frameWriteAny 0x92 0x00).wf = true ∧ (Instr.frameReadAny 0xFF).wf = true ∧
    (Instr.getf 7).wf = true := by decide

/-! ### Decoding: every constructor, words written out from 30_encoding.md R80 to R84 -/

theorem test_decode_bitlink :
    decode (.command ⟨0x01, 0x1234, 0, 0, 0, 0, 0, 0⟩) = .wbyte 0x34 ∧
    decode (.command ⟨0x02, 0, 0, 0, 0, 0, 0, 0⟩) = .rbyte := by decide

theorem test_decode_transport :
    decode (.command ⟨0x03, 0x0081, 0, 0, 0, 0, 0, 0⟩) = .rreg 0x81 ∧
    decode (.command ⟨0x04, 0x008E, 0x0080, 0, 0, 0, 0, 0⟩) = .wreg 0x8E 0x80 ∧
    decode (.command ⟨0x05, 0x0084, 0xFF07, 0, 0, 0, 0, 0⟩) = .gwrite 0x84 0x07 := by decide

theorem test_decode_fieldcodec :
    decode (.command ⟨0x06, 0xFFFF, 0, 0, 0, 0, 0, 0⟩) = .enc 65535 ∧
    decode (.command ⟨0x07, 0x0123, 0, 0, 0, 0, 0, 0⟩) = .dec 0x23 ∧
    decode (.command ⟨0x08, 0x0004, 0x0000, 0, 0, 0, 0, 0⟩) = .clamp 4 0 ∧
    decode (.command ⟨0x09, 0xFFFC, 0x000D, 0, 0, 0, 0, 0⟩) = .wrap 4 13 := by decide

theorem test_decode_facade :
    decode (.command ⟨0x0A, 0x0008, 0, 0, 0, 0, 0, 0⟩) = .getf 0 ∧
    decode (.command ⟨0x0B, 0x07E8, 0x0002, 0x001D, 0, 0, 0, 0⟩) = .setymd 2024 2 29 ∧
    decode (.command ⟨0x0C, 0x0017, 0x003B, 0x003A, 0, 0, 0, 0⟩) = .sethms 23 59 58 ∧
    decode (.command ⟨0x0D, 0x07E8, 2, 0x1D, 4, 0x17, 0x3B, 0x3A⟩) = .setdt 2024 2 29 4 23 59 58 ∧
    decode (.command ⟨0x0E, 0, 0, 0, 0, 0, 0, 0⟩) = .start ∧
    decode (.command ⟨0x0F, 0, 0, 0, 0, 0, 0, 0⟩) = .pause := by decide

theorem test_decode_reserved :
    decode (.command ⟨0x00, 0, 0, 0, 0, 0, 0, 0⟩) = .reserved00 ∧
    decode (.command ⟨0x10, 0, 0, 0, 0, 0, 0, 0⟩) = .reserved10to1F 0 ∧
    decode (.command ⟨0x1F, 0, 0, 0, 0, 0, 0, 0⟩) = .reserved10to1F 15 := by decide

/-- The write rows of 30_encoding.md R92. -/
theorem test_decode_write_frames :
    decode (.frame 0x80 0x59) = .frameWrSecond 0x59 ∧ decode (.frame 0x82 0x59) = .frameWrMinute 0x59 ∧
    decode (.frame 0x84 0x23) = .frameWrHour 0x23 ∧ decode (.frame 0x86 0x29) = .frameWrDay 0x29 ∧
    decode (.frame 0x88 0x02) = .frameWrMonth 0x02 ∧ decode (.frame 0x8A 0x04) = .frameWrWeekday 0x04 ∧
    decode (.frame 0x8C 0x24) = .frameWrYear 0x24 ∧ decode (.frame 0x8E 0x00) = .frameWrWp 0x00 ∧
    decode (.frame 0x90 0x11) = .frameWrControl 0x11 ∧ decode (.frame 0xC0 0xAB) = .frameWrRamBase 0xAB ∧
    decode (.frame 0x92 0x12) = .frameWriteAny 0x92 0x12 := by decide

/-- The read rows of 30_encoding.md R92. -/
theorem test_decode_read_frames :
    decode (.frame 0x81 0) = .frameRdSecond ∧ decode (.frame 0x83 0) = .frameRdMinute ∧
    decode (.frame 0x85 0) = .frameRdHour ∧ decode (.frame 0x87 0) = .frameRdDay ∧
    decode (.frame 0x89 0) = .frameRdMonth ∧ decode (.frame 0x8B 0) = .frameRdWeekday ∧
    decode (.frame 0x8D 0) = .frameRdYear ∧ decode (.frame 0x8F 0) = .frameRdWp ∧
    decode (.frame 0x91 0) = .frameRdControl ∧ decode (.frame 0xC1 0) = .frameRdRamBase ∧
    decode (.frame 0xFF 0) = .frameReadAny 0xFF := by decide

/-- Words numbered as spec/opcode_table.json numbers them: the opcode or the address byte in bits 7:0. -/
theorem test_decode_table_words :
    decodeTableWord 8 0x01 = some (.wbyte 0) ∧ decodeTableWord 8 0x0A = some (.getf 0) ∧
    decodeTableWord 24 0x03E80B = some (.setymd 0x03E8 0 0) ∧ decodeTableWord 8 0x10 = some (.reserved10to1F 0) ∧
    decodeTableWord 8 0x8E = some (.frameWrWp 0) ∧ decodeTableWord 16 0x248C = some (.frameWrYear 0x24) ∧
    decodeTableWord 8 0xC1 = some .frameRdRamBase := by decide

theorem test_decode_bytes_refuses :
    decodeBytes [] = .error .noBytes ∧ decodeBytes [0x02, 0x00] = .error .shortCommand ∧
    decodeBytes [0x80] = .error .shortFrame := by decide

/-! ### The assembler (30_encoding.md R89, R90; the programs of 95_test_vectors.md section 3) -/

theorem test_assemble_setymd :
    assemble "SETYMD 2024, 2, 29 ; P1".toList = .ok (some (.command ⟨0x0B, 0x07E8, 0x0002, 0x001D, 0, 0, 0, 0⟩)) := by
  decide

theorem test_assemble_field_and_hex :
    assemble "GETF year".toList = .ok (some (.command ⟨0x0A, 0x0005, 0, 0, 0, 0, 0, 0⟩)) ∧
    assemble "WREG 0x8E, 0x00".toList = .ok (some (.command ⟨0x04, 0x008E, 0, 0, 0, 0, 0, 0⟩)) := by decide

theorem test_assemble_pseudo :
    assemble "UNPROTECT".toList = .ok (some (.command ⟨0x04, 0x008E, 0, 0, 0, 0, 0, 0⟩)) ∧
    assemble "RSECRAW".toList = .ok (some (.command ⟨0x03, 0x0081, 0, 0, 0, 0, 0, 0⟩)) ∧
    assemble "GETYEAR".toList = .ok (some (.command ⟨0x0A, 0x0005, 0, 0, 0, 0, 0, 0⟩)) ∧
    assemble "FOO 1".toList = .error .unknownMnemonic := by decide

/-! ### One step at a time -/

/-- The state a step leads to. -/
def stepTo (s : State) : State :=
  match step s with
  | .next t => t
  | .fault _ => s
  | .refused _ => s

/-- The state that presenting an instruction leads to. -/
def execTo (i : Instr) (s : State) : State :=
  match exec i s with
  | .next t => t
  | .fault _ => s
  | .refused _ => s

/-- The reset state, bound with `STRICT`. -/
def strictReset : State := { State.reset with strict := true }

/-- The reset state in front of a reference Device with these registers. -/
def onReference (m : Memory) : State := { State.reset with device := .reference { reg := m } }

/-- 95_test_vectors.md 2.4. -/
theorem test_enc :
    (execTo (.enc 59) State.reset).result = some 0x59 ∧ (execTo (.enc 99) State.reset).result = some 0x99 ∧
    (execTo (.enc 59) State.reset).done = true ∧ (execTo (.enc 100) State.reset).faultCause = 3 ∧
    (execTo (.enc 100) State.reset).result = none := by decide

theorem test_dec :
    (execTo (.dec 0x59) State.reset).result = some 59 ∧ (execTo (.dec 0xFF) State.reset).result = some 165 ∧
    (execTo (.dec 0x9A) State.reset).result = some 100 := by decide

theorem test_clamp :
    (execTo (.clamp 4 0) State.reset).result = some 1 ∧ (execTo (.clamp 0 165) State.reset).result = some 59 ∧
    (execTo (.clamp 5 99) State.reset).result = some 2099 := by decide

theorem test_clamp_strict :
    (execTo (.clamp 4 0) strictReset).result = some 0 ∧ (execTo (.clamp 4 0) strictReset).status = .outOfRange ∧
    (execTo (.clamp 5 100) strictReset).result = some 100 ∧ (execTo (.clamp 5 24) strictReset).result = some 2024 ∧
    (execTo (.clamp 7 5) strictReset).faultCause = 2 := by decide

theorem test_wrap :
    (execTo (.wrap 4 13) State.reset).result = some 0 ∧ (execTo (.wrap 3 65535) State.reset).result = some 31 ∧
    (execTo (.wrap 5 2024) State.reset).result = some 24 ∧ (execTo (.wrap 6 5) State.reset).faultCause = 2 := by decide

/-- 95_test_vectors.md 2.7. -/
theorem test_reserved :
    (execTo (.reserved10to1F 15) State.reset).trace =
      [.set .clk false, .set .ce false, .fault .illegalCommand 0x1F] ∧
    (execTo .reserved00 State.reset).faultCause = 1 ∧ (execTo .reserved00 State.reset).done = false := by decide

/-- The first action of WBYTE 0x05 (95_test_vectors.md 2.1): `Set(DIO, 1)`. -/
theorem test_wbyte_first_action :
    (stepTo (execTo (.wbyte 0x05) State.reset)).trace = [.set .clk false, .set .ce false, .set .dio true] := by decide

/-- The first sample of RBYTE is bit 0. -/
theorem test_rbyte_first_sample :
    (stepTo (execTo .rbyte { State.reset with device := .unspecified [true] })).tmp.acc = 0x01 := by decide

/-- A frame starts with `Set(CE, 1)` (95_test_vectors.md 2.2). -/
theorem test_frames_raise_ce :
    (stepTo (execTo (.rreg 0x81) State.reset)).ceQ = true ∧ (stepTo (execTo (.wreg 0x80 0x59) State.reset)).ceQ = true ∧
    (stepTo (execTo (.gwrite 0x84 0x07) State.reset)).ceQ = true ∧
    (stepTo (execTo (.frameWrHour 0x07) State.reset)).ceQ = true ∧
    (stepTo (execTo .frameRdHour State.reset)).ceQ = true := by decide

/-- The first frame of the set commands is the protect register's (95_test_vectors.md 2.6): the address byte 0x8E shifts out
0, 1 first. -/
def firstFive (s : State) : List Prim :=
  match s.slot with
  | .busy _ k => k.prims.take 5
  | .idle => []
  | .binding _ => []

theorem test_set_commands_unlock_first :
    firstFive (execTo (.setymd 2024 2 29) State.reset) =
      [.ce true, .drive 0 false, .clk true, .clk false, .drive 1 true] ∧
    firstFive (execTo (.sethms 23 59 59) State.reset) =
      [.ce true, .drive 0 false, .clk true, .clk false, .drive 1 true] ∧
    firstFive (execTo (.setdt 2024 2 29 4 23 59 59) State.reset) =
      [.ce true, .drive 0 false, .clk true, .clk false, .drive 1 true] ∧
    firstFive (execTo .start State.reset) = [.ce true, .drive 0 true, .clk true, .clk false, .drive 1 false] ∧
    firstFive (execTo .pause State.reset) = [.ce true, .drive 0 true, .clk true, .clk false, .drive 1 false] := by decide

/-- 43_fieldcodec.md R161 and 95_test_vectors.md 2.5: the stored byte of a calendar write. -/
theorem test_field_bytes :
    fieldByte .year 2024 = 0x24 ∧ fieldByte .month 13 = 0x00 ∧ fieldByte .day 32 = 0x00 ∧ fieldByte .hour 47 = 0x23 ∧
    fieldByte .minute 75 = 0x15 ∧ fieldByte .second 60 = 0x00 := by decide

/-- 95_test_vectors.md 2.6: what START and PAUSE write, and the mask of the second field only. -/
theorem test_halt_bytes :
    haltByte .set 0x30 = 0xB0 ∧ haltByte .set 0xB0 = 0xB0 ∧ haltByte .clear 0xB0 = 0x30 ∧ haltByte .clear 0xFF = 0x7F ∧
    maskRead .second 0xFF = 0x7F ∧ maskRead .minute 0x80 = 0x80 := by decide

/-- 95_test_vectors.md 2.6: the last step of GETF, in both modes. -/
theorem test_getf_epilogue :
    (runEpilogue (.getf 0) (.readValue .second) { State.reset with tmp := { acc := 0xB0 } }).result = some 30 ∧
    (runEpilogue (.getf 0) (.readValue .second) { strictReset with tmp := { acc := 0xFF } }).result = some 85 ∧
    (runEpilogue (.getf 5) (.readValue .year) { State.reset with tmp := { acc := 0x9A } }).result = some 2099 := by
  decide

/-- `OVERLAP` records the opcode, not decoded, and the command in flight performs its action (60_exceptions.md R212,
R213). -/
theorem test_overlap :
    (execTo (.reserved10to1F 15) (execTo (.wbyte 0xFF) State.reset)).trace =
      [.set .clk false, .set .ce false, .fault .overlap 0x1F, .set .dio true] ∧
    (execTo (.getf 0) (execTo (.wbyte 0xFF) State.reset)).faultCause = 4 := by decide

/-- A binding under way is busy: `OVERLAP` is recorded (60_exceptions.md R212), and the binding ends with `fault` at 0
(70_reset_and_hazards.md R226). With a fault standing nothing is recorded (R217). -/
theorem test_overlap_in_binding :
    (execTo (.getf 0) (startBinding false State.reset)).trace =
      [.set .clk false, .set .ce false, .set .clk false, .fault .overlap 0x0A, .set .ce false] ∧
    (execTo (.getf 0) (startBinding false State.reset)).fault = false ∧
    (execTo (.getf 0) (startBinding false { State.reset with fault := true, faultCause := 3 })).trace =
      [.set .clk false, .set .ce false, .set .clk false, .set .ce false] := by decide

/-- The commit of a write frame on the reference Device (20_memory.md R70): refused under protection, except at 0x8E. -/
theorem test_reference_commit :
    (RefDevice.ceFall { reg := [(0x8E, 0x80)], phase := .writeData, clocks := 16, addrShift := 0x84, dataShift := 0x05 }).reg
      = [(0x8E, 0x80)] ∧
    (RefDevice.ceFall { reg := [(0x8E, 0x80)], phase := .writeData, clocks := 16, addrShift := 0x8E, dataShift := 0x00 }).reg
      = [(0x8E, 0x00)] ∧
    (RefDevice.ceFall { reg := [(0x8E, 0x00)], phase := .writeData, clocks := 16, addrShift := 0x84, dataShift := 0x05 }).reg
      = [(0x84, 0x05), (0x8E, 0x00)] ∧
    (RefDevice.ceFall { reg := [(0x8E, 0x00)], phase := .writeData, clocks := 15, addrShift := 0x84, dataShift := 0x05 }).reg
      = [(0x8E, 0x00)] := by decide

/-- A binding inside a write frame: the reference Device commits if all 16 clocks are done (20_memory.md R70; assumption log
26), and not before (R71). -/
theorem test_binding_in_a_write_frame :
    let inFrame (clocks : Nat) : State := { State.reset with
      ceQ := true, device := .reference { reg := [(0x8E, 0x00)], phase := .writeData, clocks, addrShift := 0x84, dataShift := 0x05 } }
    (finishBinding false (inFrame 16)).device.registers = some [(0x84, 0x05), (0x8E, 0x00)] ∧
    (finishBinding false (inFrame 15)).device.registers = some [(0x8E, 0x00)] := by decide

/-- The first data bit of a read frame is on DATA before clock 9 (20_memory.md R69). -/
theorem test_reference_read_bit :
    RefDevice.drives { reg := [(0x80, 0x59)], phase := .readData, clocks := 8, addrShift := 0x81 } false = some true ∧
    RefDevice.drives { reg := [(0x80, 0x59)], phase := .readData, clocks := 9, addrShift := 0x81 } false = some false ∧
    RefDevice.drives { reg := [(0x80, 0x59)], phase := .readData, clocks := 16, addrShift := 0x81 } false = none := by
  decide

/-- A word placed by `withFetchWord` runs in the very next step. -/
theorem test_fetch_word :
    (stepTo (State.reset.withFetchWord 24 0x003B06)).result = some 0x59 ∧
    (stepTo (State.reset.withFetchWord 8 0x8D)).slot = .busy .frameRdYear ⟨readFrame 0x8D, .endReadFrame⟩ := by decide

/-- Reading a port that has no value stops; afterwards it does not (10_state.md R33, 92_eei_decisions.md D5). -/
theorem test_ports :
    readResultPort State.reset = .error .resultHasNoValue ∧ readDioPort State.reset = .error .dioLevelUnknown ∧
    readResultPort (execTo (.enc 42) State.reset) = .ok 0x42 ∧
    readDioPort (stepTo (execTo (.wbyte 1) State.reset)) = .ok true := by decide

/-! ### Witnesses: the hypotheses of every obligation are met -/

/-- A command in flight. -/
def inFlight : State := execTo (.wbyte 0xA5) State.reset

/-- A faulted engine. -/
def faulted : State := execTo (.enc 100) State.reset

/-- The reset state with quiet steps ahead. -/
def quietAhead : State := { State.reset with inputs := [.quiet, .quiet] }

theorem witness_ready : State.reset.ready ∧ strictReset.ready ∧ quietAhead.ready := ⟨⟨rfl, rfl⟩, ⟨rfl, rfl⟩, ⟨rfl, rfl⟩⟩

theorem witness_quiet (n : Nat) : State.reset.quietFor n ∧ strictReset.quietFor n ∧ quietAhead.quietFor n := by
  refine ⟨fun x hx => ?_, fun x hx => ?_, fun x hx => ?_⟩
  · simp [State.reset] at hx
  · simp [strictReset, State.reset] at hx
  · have := List.mem_of_mem_take hx
    simpa [quietAhead] using this

/-- DecodeEncodeRoundTrip and BytesRoundTrip, at the lowest address with a spelling in bytes. -/
theorem witness_round_trip : (Instr.frameWriteAny 0x20 0xFF).wf = true ∧
    (∀ addr data, encode (.frameWriteAny 0x20 0xFF) = .frame addr data → 0x20 ≤ addr.toNat) ∧
    (Instr.setdt 0xFFFF 0 0 0 0 0 0xFFFF).wf = true ∧
    (∀ addr data, encode (.setdt 0xFFFF 0 0 0 0 0 0xFFFF) = .frame addr data → 0x20 ≤ addr.toNat) := by
  refine ⟨by decide, fun addr data h => ?_, by decide, fun addr data h => nomatch h⟩
  cases h
  decide

/-- ReservedOpcodesAreExactly, at both ends of the reserved range and beside it. -/
theorem witness_reserved : decodeCommand { op := 0x10 } = .reserved10to1F 0 ∧
    decodeCommand { op := 0x1F } = .reserved10to1F 15 ∧ decodeCommand { op := 0x0F } = .pause := by decide

/-- StepRunsThePresentedInstruction, each clause. -/
theorem witness_step : ({ State.reset with inputs := [.present (.command { op := 0x0F })] } : State).inputs =
      .present (.command { op := 0x0F }) :: [] ∧
    State.reset.inputs = [] ∧ quietAhead.inputs = .quiet :: [.quiet] ∧ decodeTableWord 8 0x0F = some .pause := by decide

/-- BindingResetsTheEngine, from a faulted engine and from one in flight, with the wire at rest. -/
theorem witness_binding : ({ faulted with inputs := [.bind true, .quiet] } : State).inputs = .bind true :: .quiet :: [] ∧
    ({ inFlight with inputs := [.bind true, .quiet] } : State).wireAtRest ∧ faulted.wireAtRest :=
  ⟨rfl, ⟨rfl, rfl⟩, ⟨rfl, rfl⟩⟩

/-- ReservedFieldCodesFault, both codes. -/
theorem witness_field_codes : State.reset.ready ∧ 6 ≤ (6 : BitVec 3).toNat ∧ 6 ≤ (7 : BitVec 3).toNat :=
  ⟨⟨rfl, rfl⟩, by decide, by decide⟩

/-- EncOutsideItsDomainFaults at 100 and at 65535, EncPacksTwoDigits at 99. -/
theorem witness_enc : State.reset.ready ∧ 99 < (100 : Word).toNat ∧ 99 < (0xFFFF : Word).toNat ∧ (99 : Word).toNat ≤ 99 :=
  ⟨⟨rfl, rfl⟩, by decide, by decide, by decide⟩

/-- OverlapFaultsAndTheCommandGoesOn, OneWireActionPerStep, StrictIsConstantBetweenBindings. -/
theorem witness_in_flight : inFlight.slot = .busy (.wbyte 0xA5) ⟨writeByte 0xA5, .finish⟩ ∧ inFlight.fault = false ∧
    (writeByte 0xA5 ≠ []) ∧ (∀ strict, inFlight.slot ≠ .binding strict) ∧ step inFlight = .next (stepTo inFlight) :=
  ⟨rfl, rfl, by decide, nofun, rfl⟩

/-- OverlapIsRecordedDuringABinding, with and without a fault standing. -/
theorem witness_in_binding : (startBinding true State.reset).slot = .binding true ∧
    (startBinding true State.reset).fault = false ∧ (startBinding false faulted).slot = .binding false ∧
    (startBinding false faulted).fault = true := ⟨rfl, rfl, rfl, rfl⟩

/-- EveryCommandCompletes. -/
theorem witness_completes : inFlight.slot = .busy (.wbyte 0xA5) ⟨writeByte 0xA5, .finish⟩ ∧ writeByte 0xA5 ≠ [] ∧
    inFlight.quietFor (Cont.steps ⟨writeByte 0xA5, .finish⟩) := by
  refine ⟨rfl, by decide, fun x hx => ?_⟩
  have h : inFlight.inputs = [] := rfl
  simp [h] at hx

/-- FaultedEngineIgnoresCommands and FaultIsStickyUntilBinding. -/
theorem witness_faulted : faulted.slot = .idle ∧ faulted.fault = true ∧ (∀ strict, faulted.slot ≠ .binding strict) ∧
    step faulted = .next (stepTo faulted) := ⟨rfl, rfl, nofun, rfl⟩

/-- FaultsAriseAtAcceptanceOnly, from an idle engine and from one in flight. -/
theorem witness_fault_arises :
    let s : State := { State.reset with inputs := [.present (.command { op := 0x00 })] }
    let b : State := { inFlight with inputs := [.present (.command { op := 0x0A })] }
    s.fault = false ∧ s.slot = .idle ∧ step s = .next (stepTo s) ∧ (stepTo s).fault = true ∧
    b.fault = false ∧ step b = .next (stepTo b) ∧ (stepTo b).fault = true :=
  ⟨rfl, rfl, rfl, rfl, rfl, rfl, rfl⟩

/-- ActionCountsAreExact, at the bounds of the checks. -/
theorem witness_counts : State.reset.ready ∧ passesChecks (.enc 99) ∧ passesChecks (.getf 5) ∧
    passesChecks (.frameReadAny 0xFF) ∧ State.reset.quietFor (actionCount (.setdt 0 0 0 0 0 0 0)) :=
  ⟨⟨rfl, rfl⟩, show (99 : Word).toNat ≤ 99 by decide, show (5 : BitVec 3).toNat ≤ 5 by decide, trivial,
    (witness_quiet _).1⟩

/-- AnyByteCanBeRead. -/
theorem witness_any_byte :
    let s : State := { State.reset with device := .unspecified (wireOrder 0x29 ++ [true]) }
    s.ready ∧ s.device = .unspecified (wireOrder 0x29 ++ [true]) ∧ s.quietFor 50 :=
  ⟨⟨rfl, rfl⟩, rfl, (witness_quiet 50).1⟩

/-- PackedRoundTrips at its bounds. -/
theorem witness_packed : (0x99 : Byte).toNat / 16 ≤ 9 ∧ (0x99 : Byte).toNat % 16 ≤ 9 ∧ 99 ≤ 99 := by decide

/-- The obligations on the reference Device, protected or not: a ready engine, the wire at rest, addresses of each
direction, the protect register itself among them. -/
theorem witness_reference :
    let s := onReference [(0x80, 0xB0), (0x8E, 0x80)]
    s.ready ∧ s.wireAtRest ∧ s.device = .reference { reg := [(0x80, 0xB0), (0x8E, 0x80)] } ∧ s.strict = false ∧
    s.quietFor 950 ∧ (0x84 : Byte).getLsbD 0 = false ∧ (0x8E : Byte).getLsbD 0 = false ∧ (0x8E : Byte) = Reg.writeProtect.waddr ∧
    (0x81 : Byte).getLsbD 0 = true ∧ (0x81 : Byte) = Reg.second.waddr + 1 ∧ Memory.read [(0x80, 0xB0), (0x8E, 0x80)] 0x8E = 0x80 :=
  ⟨⟨rfl, rfl⟩, ⟨rfl, rfl⟩, rfl, rfl, (witness_quiet 950).1, rfl, rfl, rfl, rfl, rfl, rfl⟩

/-- UnpoweredDeviceReadsAllOnes. -/
theorem witness_unpowered :
    let s : State := { State.reset with device := .unpowered {} }
    s.ready ∧ s.device = .unpowered {} ∧ s.strict = false ∧ s.quietFor 150 :=
  ⟨⟨rfl, rfl⟩, rfl, rfl, (witness_quiet 150).1⟩

/-- WireFramingIsKept, in the middle of a command. -/
theorem witness_wire_inv : WireInv inFlight ∧ step inFlight = .next (stepTo inFlight) := by
  refine ⟨⟨rfl, rfl, rfl, by decide, rfl, rfl, rfl⟩, rfl⟩

/-- FlagInvariantIsKept, in a faulted state. -/
theorem witness_flag_inv : FlagInv faulted ∧ step faulted = .next (stepTo faulted) :=
  ⟨⟨nofun, fun _ => ⟨.codecDomain, rfl⟩, nofun, nofun⟩, rfl⟩

/-- DeviceInvariantIsKept, in a write frame and in a read frame. -/
theorem witness_device_inv :
    let w : State := { State.reset with ceQ := true, device := .reference { phase := .writeData, clocks := 16, addrShift := 0x84 } }
    let r : State := { State.reset with ceQ := true, device := .reference { phase := .readData, clocks := 8, addrShift := 0x81 } }
    DeviceInv w ∧ step w = .next (stepTo w) ∧ DeviceInv r ∧ step r = .next (stepTo r) :=
  ⟨⟨⟨List.Pairwise.nil, nofun⟩, nofun, nofun, nofun, fun _ => by decide⟩, rfl,
    ⟨⟨List.Pairwise.nil, nofun⟩, nofun, nofun, fun _ => by decide, nofun⟩, rfl⟩

end Sys2Proof.Tests.Slice0
end

/-!
The statements on the scope of the model (00_scope.md): one wire action a step, any byte can be read, and the
register map.
-/

namespace Sys2Proof.Machine

/-! ### One wire action a step -/

/-- From `s` to `t` the trace only grew, by at most one wire action, and by exactly one if a command in flight at `s` had a
primitive left. It reads the slot and the trace of `s` and the trace of `t` only. -/
def ActsOnce (s t : State) : Prop :=
  ∃ es, t.trace = s.trace ++ es ∧ (es.filter Event.isWire).length ≤ 1 ∧
    ∀ cmd k, s.slot = .busy cmd k → k.prims ≠ [] → (es.filter Event.isWire).length = 1

/-- One wire action is enough in every state. -/
theorem ActsOnce.of_wire {s t : State} {e : Event} (ht : t.trace = s.trace ++ [e]) (he : e.isWire = true) :
    ActsOnce s t :=
  ⟨[e], ht, by simp [he], fun _ _ _ _ => by simp [he]⟩

/-- No event is enough where no command has a primitive left. -/
theorem ActsOnce.of_no_event {s t : State} (ht : t.trace = s.trace)
    (hs : ∀ cmd k, s.slot = .busy cmd k → k.prims = []) : ActsOnce s t :=
  ⟨[], by simp [ht], by simp, fun cmd k hk hne => absurd (hs cmd k hk) hne⟩

/-- The record of a fault before a step's events is no wire action (60_exceptions.md R207). -/
theorem ActsOnce.of_raise {s t : State} {cause : FaultCause} {info : Word} (h : ActsOnce (raise cause info s) t) :
    ActsOnce s t := by
  obtain ⟨es, ht, hle, hone⟩ := h
  exact ⟨.fault cause info :: es, by simp [ht], hle, hone⟩

/-- The one event a primitive appends is a wire action (00_scope.md R16). -/
theorem perform_trace_wire (p : Prim) (s : State) :
    ∃ e : Event, (perform p s).trace = s.trace ++ [e] ∧ e.isWire = true := by
  cases p <;> exact ⟨_, rfl, rfl⟩

/-- The engine's advance is one wire action, or none where no primitive is left. -/
theorem actsOnce_advance (s : State) : ActsOnce s (advance s) := by
  rcases advance_cases s with ⟨hs, ha⟩ | ⟨strict, hs, ha⟩ | ⟨cmd, after, hs, ha⟩ | ⟨cmd, p, after, hs, ha⟩ |
    ⟨cmd, p, q, ps, after, hs, ha⟩ <;> rw [ha]
  · exact .of_no_event rfl (by simp [hs])
  · exact .of_wire (finishBinding_trace strict s) rfl
  · exact .of_no_event (runEpilogue_trace cmd after s) (by simp [hs])
  · obtain ⟨e, ht, he⟩ := perform_trace_wire p s
    exact .of_wire ((runEpilogue_trace cmd after _).trans ht) he
  · obtain ⟨e, ht, he⟩ := perform_trace_wire p s
    exact .of_wire ht he

/-- Settles O19: each case of `step_cases` is an advance, the first action of a binding, or an acceptance, which finds the
engine idle and performs no wire action. -/
theorem oneWireActionPerStep : Obligations.OneWireActionPerStep := by
  intro s t h
  show ActsOnce s t
  obtain ⟨rest, -, ht | ⟨strict, ht⟩ | ⟨r, -, -, ⟨-, info, ht⟩ | ⟨hidle, haccept⟩⟩⟩ := step_cases h
  · subst ht
    exact actsOnce_advance { s with inputs := rest, done := false }
  · subst ht
    exact .of_wire (startBinding_trace strict _) rfl
  · subst ht
    exact (actsOnce_advance (raise .overlap info { s with inputs := rest, done := false })).of_raise
  · have hnone : ∀ cmd k, s.slot = .busy cmd k → k.prims = [] := by simp [hidle]
    obtain ⟨cause, info, ht⟩ | ⟨v, status, ht, -⟩ | ⟨ps, after, ht, -⟩ := haccept <;> subst ht
    · exact (ActsOnce.of_no_event (s := raise cause info { s with inputs := rest, done := false }) rfl hnone).of_raise
    · exact .of_no_event (completeWith_trace v status _) hnone
    · exact .of_no_event (acceptAs_trace _ ps after _) hnone

/-! ### Any byte can be read -/

/-- A command that returns the accumulated byte has it as its `result`, and leaves the Device as its primitives do. -/
theorem performs_returnByte {i : Instr} {ps : List Prim} {s : State} (hne : ps ≠ [])
    (he : exec i s = .next (present i (acceptAs i ps .returnByte) s)) (hr : s.ready) (hq : s.quietFor ps.length) :
    ∃ u, Performs i ps.length s u ∧
      u.result = some (BitVec.ofNat 16 (performAll ps (s.started ps.length)).tmp.acc.toNat) ∧
      u.device = (performAll ps (s.started ps.length)).device :=
  ⟨_, performs_of_accept hne he hr hq, by simp, runEpilogue_device i .returnByte _⟩

/-- Settles O26: a readByte, alone or in a read frame, assembles the eight levels that the unspecified Device presents. -/
theorem anyByteCanBeRead : Obligations.AnyByteCanBeRead := by
  intro v levels s hr hd
  constructor
  · intro hq
    obtain ⟨-, htmp, hdev⟩ := readByte_unspecified v levels (s.started 24) hd
    have h := performs_returnByte (i := .rbyte) (ps := readByte) (by simp [readByte_eq, readBit]) rfl hr
      (by rwa [length_readByte])
    rwa [length_readByte, htmp, hdev] at h
  · intro addr hq
    obtain ⟨-, htmp, hdev⟩ := readFrame_unspecified addr v levels (s.started 50) hd
    have h := performs_returnByte (i := .rreg addr) (ps := readFrame addr) (by simp [readFrame]) rfl hr
      (by rwa [length_readFrame])
    rwa [length_readFrame, htmp, hdev] at h

/-! ### The register map -/

/-- Settles O7: the map and the field addresses are read off the definitions (20_memory.md R47, R49). -/
theorem registerMapIsBitExact : Obligations.RegisterMapIsBitExact :=
  ⟨rfl, fun _ => rfl, rfl, rfl, rfl, rfl, rfl, rfl, fun _ => rfl⟩

end Sys2Proof.Machine

/-!
The statements on the engine's state (10_state.md): what holds at reset, what every step keeps of the flags, `STRICT` and the
wire, and what a word presented during a binding does.
-/

namespace Sys2Proof.Machine

/-! ### What the engine's advance keeps outside a binding -/

/-- Only the end of a binding writes `fault`, `fault_cause` and `STRICT` in an advance. -/
theorem advance_keeps_of_not_binding {s : State} (h : ∀ strict, s.slot ≠ .binding strict) :
    (advance s).fault = s.fault ∧ (advance s).faultCause = s.faultCause ∧ (advance s).strict = s.strict := by
  rcases advance_cases s with ⟨-, ha⟩ | ⟨strict, hs, -⟩ | ⟨cmd, after, -, ha⟩ | ⟨cmd, p, after, -, ha⟩ |
    ⟨cmd, p, q, ps, after, -, ha⟩
  · simp [ha]
  · exact absurd hs (h strict)
  · simp [ha]
  · simp [ha]
  · simp [ha]

/-- Settles O17: a faulted engine takes no word, so a step is an advance outside a binding or the first action of one. -/
theorem faultIsStickyUntilBinding : Obligations.FaultIsStickyUntilBinding := by
  intro s t hfault hslot h
  obtain ⟨rest, -, ht | ⟨strict, ht⟩ | ⟨r, -, hclear, -⟩⟩ := step_cases h
  · obtain ⟨hf, hc, -⟩ := advance_keeps_of_not_binding (s := { s with inputs := rest, done := false }) hslot
    rw [ht]
    exact ⟨hf.trans hfault, hc⟩
  · rw [ht]
    exact ⟨hfault, rfl⟩
  · simp [hfault] at hclear

/-- Settles O20: no advance outside a binding writes `STRICT`, and neither does an acceptance or the start of a binding. -/
theorem strictIsConstantBetweenBindings : Obligations.StrictIsConstantBetweenBindings := by
  intro s t hslot h
  obtain ⟨rest, -, ht | ⟨strict, ht⟩ | ⟨r, -, -, ⟨-, info, ht⟩ | ⟨-, haccept⟩⟩⟩ := step_cases h
  · obtain ⟨-, -, hstrict⟩ := advance_keeps_of_not_binding (s := { s with inputs := rest, done := false }) hslot
    rw [ht, hstrict]
  · rw [ht, startBinding_strict]
  · obtain ⟨-, -, hstrict⟩ :=
      advance_keeps_of_not_binding (s := raise .overlap info { s with inputs := rest, done := false }) hslot
    rw [ht, hstrict, raise_strict]
  · obtain ⟨cause, info, ht⟩ | ⟨v, status, ht, -⟩ | ⟨ps, after, ht, -⟩ := haccept
    · rw [ht, raise_strict]
    · rw [ht, completeWith_strict]
    · rw [ht, acceptAs_strict]

/-! ### The flag invariant -/

/-- A read is out of range only in strict mode (43_fieldcodec.md R155). -/
theorem strict_of_readStatus {strict : Bool} {f : Field} {d : Nat} (h : readStatus strict f d = .outOfRange) :
    strict = true := by
  cases strict with
  | true => rfl
  | false => simp [readStatus] at h

theorem flagInv_raise {s : State} (h : FlagInv s) (cause : FaultCause) (info : Word) :
    FlagInv (raise cause info s) := by
  obtain ⟨-, -, hstatus, hdone⟩ := h
  exact ⟨nofun, fun _ => ⟨cause, rfl⟩, hstatus, hdone⟩

theorem flagInv_perform {s : State} (h : FlagInv s) (p : Prim) : FlagInv (perform p s) := by
  simpa [FlagInv] using h

/-- A completion may raise `done`, for it leaves the engine idle. -/
theorem flagInv_completeWith {s : State} (h : FlagInv s) {status : Status}
    (hs : status = .outOfRange → s.strict = true) (v : Word) : FlagInv (completeWith v status s) := by
  obtain ⟨hclear, hset, -, -⟩ := h
  exact ⟨hclear, hset, hs, fun _ => rfl⟩

/-- A slot may be taken by a command when `done` is 0. -/
theorem flagInv_occupy {s : State} (h : FlagInv s) (hd : s.done = false) (cmd : Instr) (ps : List Prim)
    (after : Epilogue) : FlagInv (occupy cmd ps after s) := by
  obtain ⟨hclear, hset, hstatus, -⟩ := h
  exact ⟨hclear, hset, hstatus, by simp [hd]⟩

theorem flagInv_runEpilogue {s : State} (h : FlagInv s) (hd : s.done = false) (cmd : Instr) (after : Epilogue) :
    FlagInv (runEpilogue cmd after s) := by
  have ⟨hclear, hset, hstatus, _⟩ := h
  cases after with
  | finish => exact ⟨hclear, hset, nofun, fun _ => rfl⟩
  | returnByte => exact flagInv_completeWith (status := .ok) h nofun _
  | readValue f => exact ⟨hclear, hset, strict_of_readStatus, fun _ => rfl⟩
  | writeBack op => exact flagInv_occupy (s := { s with tmp := _ }) h hd cmd _ _
  | endWriteFrame => exact ⟨hclear, hset, hstatus, fun _ => rfl⟩
  | endReadFrame => exact ⟨hclear, hset, hstatus, fun _ => rfl⟩

theorem flagInv_startBinding {s : State} (h : FlagInv s) (strict : Bool) : FlagInv (startBinding strict s) := by
  obtain ⟨hclear, hset, hstatus, -⟩ := h
  exact ⟨hclear, hset, hstatus, nofun⟩

/-- The end of a binding leaves every flag at its reset value. -/
theorem flagInv_finishBinding (strict : Bool) (s : State) : FlagInv (finishBinding strict s) :=
  ⟨fun _ => rfl, nofun, nofun, nofun⟩

theorem flagInv_advance {s : State} (h : FlagInv s) (hd : s.done = false) : FlagInv (advance s) := by
  rcases advance_cases s with ⟨-, ha⟩ | ⟨strict, -, ha⟩ | ⟨cmd, after, -, ha⟩ | ⟨cmd, p, after, -, ha⟩ |
    ⟨cmd, p, q, ps, after, -, ha⟩ <;> rw [ha]
  · exact h
  · exact flagInv_finishBinding strict s
  · exact flagInv_runEpilogue h hd cmd after
  · exact flagInv_runEpilogue (flagInv_perform h p) (by simpa using hd) cmd after
  · exact flagInv_occupy (flagInv_perform h p) (by simpa using hd) cmd _ after

/-- Settles O49: `done` falls at the start of a step, and each thing a step can then do keeps the invariant. -/
theorem flagInvariantIsKept : Obligations.FlagInvariantIsKept := by
  intro s t hs h
  obtain ⟨rest, -, hcases⟩ := step_cases h
  have hq : FlagInv { s with inputs := rest, done := false } := by
    obtain ⟨hclear, hset, hstatus, -⟩ := hs
    exact ⟨hclear, hset, hstatus, nofun⟩
  obtain ht | ⟨strict, ht⟩ | ⟨r, -, -, ⟨-, info, ht⟩ | ⟨-, haccept⟩⟩ := hcases
  · exact ht ▸ flagInv_advance hq rfl
  · exact ht ▸ flagInv_startBinding (s := { s with inputs := rest }) hs strict
  · exact ht ▸ flagInv_advance (flagInv_raise hq .overlap info) rfl
  · obtain ⟨cause, info, ht⟩ | ⟨v, status, ht, hstrict⟩ | ⟨ps, after, ht, -⟩ := haccept
    · exact ht ▸ flagInv_raise hq cause info
    · exact ht ▸ flagInv_completeWith hq hstrict v
    · exact ht ▸ flagInv_occupy (s := { s with inputs := rest, done := false, tmp := {} }) hq rfl _ ps after

/-! ### The wire invariant -/

/-- What the monitor of `WireInv` has seen in the trace of a state. -/
def State.monitor (s : State) : WireMonitor := watch {} s.trace

/-- The trace accounts for the levels of CLK and CE. -/
def State.Tracked (s : State) : Prop := s.monitor.clk = s.clkQ ∧ s.monitor.ce = s.ceQ

@[simp] theorem monitor_perform (p : Prim) (s : State) : (perform p s).monitor = s.monitor.see p.event := by
  obtain ⟨e, ht, he⟩ := perform_trace p s
  rw [State.monitor, ht, watch_concat, he, State.monitor]

@[simp] theorem monitor_raise (cause : FaultCause) (info : Word) (s : State) :
    (raise cause info s).monitor = s.monitor := watch_concat {} s.trace (.fault cause info)

@[simp] theorem monitor_startBinding (strict : Bool) (s : State) :
    (startBinding strict s).monitor = { s.monitor with clk := false } := watch_concat {} s.trace (.set .clk false)

@[simp] theorem monitor_finishBinding (strict : Bool) (s : State) : (finishBinding strict s).monitor =
    { s.monitor with ce := false, pulses := 0, kept := s.monitor.kept && !s.monitor.clk } :=
  watch_concat {} s.trace (.set .ce false)

theorem tracked_perform {s : State} (h : s.Tracked) (p : Prim) : (perform p s).Tracked := by
  obtain ⟨hc, he⟩ := h
  simpa [State.Tracked] using perform_levels p s s.monitor hc he

/-- The monitor never takes back that the framing was broken. -/
theorem kept_of_see {m : WireMonitor} {e : Event} (h : (m.see e).kept = true) : m.kept = true := by
  unfold WireMonitor.see at h
  split at h
  · split at h <;> simp_all
  all_goals simp_all

theorem kept_of_watch {m : WireMonitor} {es : List Event} (h : (watch m es).kept = true) : m.kept = true := by
  induction es generalizing m with
  | nil => exact h
  | cons e es ih => exact kept_of_see (ih h)

/-- `WireInv` of an idle engine. -/
theorem wireInv_idle_iff {s : State} (h : s.slot = .idle) : WireInv s ↔ s.Tracked ∧ s.monitor.atRest := by
  simp only [WireInv, h, State.Tracked, State.monitor, WireMonitor.atRest]
  tauto

/-- `WireInv` between the two actions of a binding. -/
theorem wireInv_binding_iff {s : State} {strict : Bool} (h : s.slot = .binding strict) :
    WireInv s ↔ s.Tracked ∧ s.monitor.kept = true ∧ s.monitor.clk = false := by
  simp only [WireInv, h, State.Tracked, State.monitor]
  tauto

/-- `WireInv` of a command in flight: that the framing was kept so far follows from its being kept at the end. -/
theorem wireInv_busy_iff {s : State} {cmd : Instr} {ps : List Prim} {after : Epilogue}
    (h : s.slot = .busy cmd ⟨ps, after⟩) :
    WireInv s ↔ s.Tracked ∧ ps ≠ [] ∧ (watch s.monitor (ps.map Prim.event)).atRest := by
  have hk : (watch s.monitor (ps.map Prim.event)).atRest → s.monitor.kept = true := fun hr => kept_of_watch hr.1
  simp only [WireInv, h, State.Tracked, State.monitor] at hk ⊢
  tauto

theorem WireInv.kept {s : State} (h : WireInv s) : s.monitor.kept = true := h.1

theorem WireInv.tracked {s : State} (h : WireInv s) : s.Tracked := ⟨h.2.1, h.2.2.1⟩

/-- A recorded fault is no event of the wire. -/
theorem wireInv_raise {s : State} (h : WireInv s) (cause : FaultCause) (info : Word) :
    WireInv (raise cause info s) := by
  have hm : watch {} (raise cause info s).trace = watch {} s.trace := monitor_raise cause info s
  simpa only [WireInv, hm, raise_clkQ, raise_ceQ, raise_slot] using h

theorem wireInv_startBinding {s : State} (h : WireInv s) (strict : Bool) : WireInv (startBinding strict s) := by
  obtain ⟨-, he⟩ := h.tracked
  rw [wireInv_binding_iff (startBinding_slot strict s)]
  exact ⟨⟨by simp, by simpa using he⟩, by simpa using h.kept, by simp⟩

/-- CLK is low between the two actions of a binding, so CE may fall. -/
theorem wireInv_finishBinding {s : State} {strict : Bool} (hs : s.slot = .binding strict) (h : WireInv s) :
    WireInv (finishBinding strict s) := by
  obtain ⟨⟨hc, -⟩, hkept, hlow⟩ := (wireInv_binding_iff hs).1 h
  rw [wireInv_idle_iff (finishBinding_slot strict s)]
  exact ⟨⟨by simpa using hc, by simp⟩, by simp [hkept, hlow], by simpa using hlow, by simp⟩

/-- From rest, primitives that keep the framing may be lined up. -/
theorem wireInv_occupy {s : State} (ht : s.Tracked) (hr : s.monitor.atRest) {ps : List Prim} (hne : ps ≠ [])
    (hps : Framed ps) (cmd : Instr) (after : Epilogue) : WireInv (occupy cmd ps after s) :=
  (wireInv_busy_iff (occupy_slot cmd ps after s)).2 ⟨ht, hne, hps _ hr⟩

/-- Where the last primitive left the wire at rest, what follows it is idle, or START's and PAUSE's guarded write. -/
theorem wireInv_runEpilogue {s : State} (ht : s.Tracked) (hr : s.monitor.atRest) (cmd : Instr) (after : Epilogue) :
    WireInv (runEpilogue cmd after s) := by
  cases after with
  | finish => exact (wireInv_idle_iff rfl).2 ⟨ht, hr⟩
  | returnByte => exact (wireInv_idle_iff rfl).2 ⟨ht, hr⟩
  | readValue f => exact (wireInv_idle_iff rfl).2 ⟨ht, hr⟩
  | writeBack op =>
    exact wireInv_occupy (s := { s with tmp := _ }) ht hr (by simp [guardedWrite, writeFrame])
      (framed_guardedWrite _ _) cmd _
  | endWriteFrame => exact (wireInv_idle_iff rfl).2 ⟨ht, hr⟩
  | endReadFrame => exact (wireInv_idle_iff rfl).2 ⟨ht, hr⟩

theorem wireInv_advance {s : State} (h : WireInv s) : WireInv (advance s) := by
  rcases advance_cases s with ⟨-, ha⟩ | ⟨strict, hs, ha⟩ | ⟨cmd, after, hs, -⟩ | ⟨cmd, p, after, hs, ha⟩ |
    ⟨cmd, p, q, ps, after, hs, ha⟩
  · rwa [ha]
  · rw [ha]
    exact wireInv_finishBinding hs h
  · obtain ⟨-, hne, -⟩ := (wireInv_busy_iff hs).1 h
    exact absurd rfl hne
  · obtain ⟨ht, -, hr⟩ := (wireInv_busy_iff hs).1 h
    rw [ha]
    exact wireInv_runEpilogue (tracked_perform ht p) (by simpa using hr) cmd after
  · obtain ⟨ht, -, hr⟩ := (wireInv_busy_iff hs).1 h
    rw [ha, wireInv_busy_iff (occupy_slot cmd (q :: ps) after _)]
    refine ⟨tracked_perform ht p, by simp, ?_⟩
    show (watch (perform p s).monitor _).atRest
    rwa [monitor_perform]

/-- Settles O48: a command in flight follows primitives that end at rest, an acceptance finds the wire at rest, and a binding
lowers CLK before CE. -/
theorem wireFramingIsKept : Obligations.WireFramingIsKept := by
  intro s t hs h
  obtain ⟨rest, -, hcases⟩ := step_cases h
  have hq : WireInv { s with inputs := rest, done := false } := hs
  obtain ht | ⟨strict, ht⟩ | ⟨r, -, -, ⟨-, info, ht⟩ | ⟨hidle, haccept⟩⟩ := hcases
  · exact ht ▸ wireInv_advance hq
  · exact ht ▸ wireInv_startBinding (s := { s with inputs := rest }) hs strict
  · exact ht ▸ wireInv_advance (wireInv_raise hq .overlap info)
  · obtain ⟨htracked, hrest⟩ := (wireInv_idle_iff hidle).1 hs
    obtain ⟨cause, info, ht⟩ | ⟨v, status, ht, -⟩ | ⟨ps, after, ht, hne, hps⟩ := haccept
    · exact ht ▸ wireInv_raise hq cause info
    · exact ht ▸ (wireInv_idle_iff rfl).2 ⟨htracked, hrest⟩
    · exact ht ▸ wireInv_occupy (s := { s with inputs := rest, done := false, tmp := {} }) htracked hrest hne hps _ after

/-! ### Reset -/

/-- Settles O10: the values of 10_state.md R42 are those of `State.reset`. -/
theorem resetHoldsTheSpecValues : Obligations.ResetHoldsTheSpecValues :=
  ⟨rfl, rfl, rfl, rfl, rfl, rfl, rfl, rfl, rfl, rfl, rfl⟩

/-- Settles O47: at reset the engine is idle, the two binding actions leave the wire at rest, every flag is 0, and the Device
is any Device. -/
theorem invariantsHoldAtReset : Obligations.InvariantsHoldAtReset := by
  refine ⟨?_, ?_, trivial⟩
  · exact (wireInv_idle_iff rfl).2 ⟨⟨rfl, rfl⟩, rfl, rfl, rfl⟩
  · exact ⟨fun _ => rfl, nofun, nofun, nofun⟩

/-! ### A word presented during a binding -/

/-- Between its two actions the advance of a binding is its second action (70_reset_and_hazards.md R226). -/
theorem advance_binding {s : State} {strict : Bool} (h : s.slot = .binding strict) :
    advance s = finishBinding strict s := by simp [advance, h]

/-- Settles O59: whatever is presented, the step ends the binding; without a standing fault it records `OVERLAP` first. -/
theorem overlapIsRecordedDuringABinding : Obligations.OverlapIsRecordedDuringABinding := by
  intro i s strict hslot
  have hbusy : s.slot ≠ .idle := by simp [hslot]
  refine ⟨(busy_iff s).2 hbusy, finishBinding strict { s with inputs := [], done := false }, ?_, rfl, rfl, rfl, rfl, ?_⟩
  · exact congrArg Host.Outcome.next (advance_binding (s := { s with inputs := [], done := false }) hslot)
  · obtain ⟨accept, hexec, -⟩ := exec_cases i
    rw [hexec]
    rcases present_cases i accept s with ⟨hidle, -⟩ | ⟨-, hfault, hp⟩ | ⟨hfault, hp⟩
    · exact absurd hidle hbusy
    · rw [hp, advance_binding (s := raise _ _ { s with done := false }) hslot, hfault]
      rfl
    · rw [hp, quietStep, advance_binding (s := { s with done := false }) hslot, hfault, if_pos rfl, List.append_nil]
      rfl

end Sys2Proof.Machine

/-!
The statements on the Device and its registers (20_memory.md): the Device's invariant, the completion of every command in
flight, and what the commands do to the reference Device and to the unpowered Device.
-/

namespace Sys2Proof.Machine

/-! ### The Device's invariant (20_memory.md R66 to R71) -/

/-- `DeviceInv` as a predicate on the Device and the level of CE, which is all of a state that it reads. -/
def Device.Inv (d : Device) (ce : Bool) : Prop :=
  match d with
  | .unspecified _ => True
  | .reference r => r.Inv ce
  | .unpowered r => Memory.wf r.reg

theorem deviceInv_iff (s : State) : DeviceInv s ↔ s.device.Inv s.ceQ := by
  unfold DeviceInv Device.Inv
  cases s.device <;> exact Iff.rfl

/-- A CLK edge reaches the reference Device only while CE is 1. -/
theorem Device.inv_onClk {d : Device} {ce : Bool} (h : d.Inv ce) (before level : Bool) (draws : Nat) :
    (d.onClk before level ce draws).1.Inv ce := by
  cases d with
  | unspecified levels => trivial
  | unpowered r => exact h
  | reference r =>
    unfold Device.onClk
    dsimp only
    split
    · have hce : ce = true := by simp_all
      subst hce
      split
      · exact RefDevice.inv_clkRise h _
      · exact RefDevice.inv_clkRise h _
    · split
      · have hce : ce = true := by simp_all
        subst hce
        exact RefDevice.inv_clkFall h
      · exact h

/-- The invariant follows CE: its rise opens a frame, its fall ends one. -/
theorem Device.inv_onCe {d : Device} {before : Bool} (h : d.Inv before) (level : Bool) :
    (d.onCe before level).Inv level := by
  cases d with
  | unspecified levels => trivial
  | unpowered r => exact h
  | reference r =>
    match before, level with
    | false, true => exact RefDevice.inv_ceRise h
    | true, false => exact RefDevice.inv_ceFall h
    | false, false => exact h
    | true, true => exact h

theorem Device.inv_onDrive {d : Device} {ce : Bool} (h : d.Inv ce) (level : Bool) : (d.onDrive level).Inv ce := by
  cases d <;> exact h

theorem Device.inv_onSample {d : Device} {ce : Bool} (h : d.Inv ce) (clk : Bool) (draws : Nat) :
    (d.onSample clk ce draws).2.1.Inv ce := by
  cases d with
  | unspecified levels => cases levels <;> trivial
  | unpowered r => exact h
  | reference r =>
    unfold Device.onSample
    dsimp only
    split <;> exact h

theorem deviceInv_perform {s : State} (h : DeviceInv s) (p : Prim) : DeviceInv (perform p s) := by
  rw [deviceInv_iff] at h ⊢
  cases p with
  | clk level => exact Device.inv_onClk h s.clkQ level s.draws
  | ce level => exact Device.inv_onCe h level
  | drive i level => exact Device.inv_onDrive h level
  | sample i => exact Device.inv_onSample h s.clkQ s.draws

theorem deviceInv_startBinding {s : State} (h : DeviceInv s) (strict : Bool) : DeviceInv (startBinding strict s) :=
  deviceInv_perform h (.clk false)

theorem deviceInv_finishBinding {s : State} (h : DeviceInv s) (strict : Bool) : DeviceInv (finishBinding strict s) :=
  deviceInv_perform h (.ce false)

/-- What follows the last primitive acts on no line. -/
theorem deviceInv_runEpilogue {s : State} (h : DeviceInv s) (cmd : Instr) (after : Epilogue) :
    DeviceInv (runEpilogue cmd after s) := by
  rw [deviceInv_iff] at h ⊢
  simpa using h

theorem deviceInv_advance {s : State} (h : DeviceInv s) : DeviceInv (advance s) := by
  rcases advance_cases s with ⟨-, ha⟩ | ⟨strict, -, ha⟩ | ⟨cmd, after, -, ha⟩ | ⟨cmd, p, after, -, ha⟩ |
    ⟨cmd, p, q, ps, after, -, ha⟩ <;> rw [ha]
  · exact h
  · exact deviceInv_finishBinding h strict
  · exact deviceInv_runEpilogue h cmd after
  · exact deviceInv_runEpilogue (deviceInv_perform h p) cmd after
  · exact deviceInv_perform h p

/-- Settles O50: a step acts on the Device by an advance or by the first action of a binding, and an acceptance leaves the
lines and the Device alone. -/
theorem deviceInvariantIsKept : Obligations.DeviceInvariantIsKept := by
  intro s t hs h
  obtain ⟨rest, -, hcases⟩ := step_cases h
  have hq : DeviceInv { s with inputs := rest, done := false } := hs
  obtain ht | ⟨strict, ht⟩ | ⟨r, -, -, ⟨-, info, ht⟩ | ⟨-, haccept⟩⟩ := hcases
  · exact ht ▸ deviceInv_advance hq
  · exact ht ▸ deviceInv_startBinding (s := { s with inputs := rest }) hs strict
  · exact ht ▸ deviceInv_advance (s := raise .overlap info { s with inputs := rest, done := false }) hq
  · obtain ⟨cause, info, ht⟩ | ⟨v, status, ht, -⟩ | ⟨ps, after, ht, -⟩ := haccept <;> exact ht ▸ hq

/-! ### A command in flight completes (20_memory.md R61, 30_encoding.md R91) -/

/-- Every epilogue but START's and PAUSE's leaves the engine idle, and pulses `done` unless it is a bare frame's. -/
theorem runEpilogue_idle {after : Epilogue} (hafter : ∀ op, after ≠ .writeBack op) (cmd : Instr) (ps : List Prim)
    {s : State} (hd : s.done = false) :
    (runEpilogue cmd after s).slot = .idle ∧ (runEpilogue cmd after s).done = !(Cont.mk ps after).bare := by
  cases after with
  | writeBack op => exact absurd rfl (hafter op)
  | finish => exact ⟨rfl, rfl⟩
  | returnByte => exact ⟨rfl, rfl⟩
  | readValue f => exact ⟨rfl, rfl⟩
  | endWriteFrame => exact ⟨rfl, hd⟩
  | endReadFrame => exact ⟨rfl, hd⟩

/-- A command in flight that lines up nothing further ends with its last primitive. -/
theorem runs_to_idle {s : State} {cmd : Instr} {ps : List Prim} {after : Epilogue}
    (hafter : ∀ op, after ≠ .writeBack op) (hslot : s.slot = .busy cmd ⟨ps, after⟩) (hne : ps ≠ [])
    (hq : s.quietFor ps.length) :
    ∃ u, Runs ps.length s u ∧ u.slot = .idle ∧ u.done = !(Cont.mk ps after).bare :=
  ⟨_, runs_busy hne hslot hq, runEpilogue_idle hafter cmd ps (by simp [State.paced])⟩

/-- START and PAUSE line up their guarded write with the last primitive of their read frame (44_facade.md R184, R185). -/
theorem runs_to_writeBack {s : State} {cmd : Instr} {ps : List Prim} {op : HaltOp}
    (hslot : s.slot = .busy cmd ⟨ps, .writeBack op⟩) (hne : ps ≠ []) (hq : s.quietFor ps.length) :
    ∃ t v, Runs ps.length s t ∧ t.slot = .busy cmd ⟨guardedWrite Reg.second.waddr v, .finish⟩ ∧
      t.inputs = s.inputs.drop ps.length :=
  ⟨_, _, runs_busy hne hslot hq, rfl, by simp [State.paced]⟩

theorem guardedWrite_ne_nil (a v : Byte) : guardedWrite a v ≠ [] := by simp [guardedWrite, writeFrame]

/-- Settles O22: the lined-up primitives run one a step; START and PAUSE then line up the 150 of their guarded write, which
run in the same way. -/
theorem everyCommandCompletes : Obligations.EveryCommandCompletes := by
  rintro s cmd ⟨ps, after⟩ hslot hne hq
  cases after with
  | writeBack op =>
    change s.quietFor (ps.length + 150) at hq
    obtain ⟨t, v, hread, hbusy, hin⟩ := runs_to_writeBack hslot hne (State.quietFor_mono hq (Nat.le_add_right _ _))
    obtain ⟨u, hwrite, hidle, hdone⟩ :=
      runs_to_idle (after := .finish) nofun hbusy (guardedWrite_ne_nil _ v) (State.quietFor_drop hq hin)
    exact ⟨u, hread.trans hwrite, hidle, hdone⟩
  | finish | returnByte | readValue _ | endWriteFrame | endReadFrame => exact runs_to_idle nofun hslot hne hq

/-! ### Frames as accepted instructions -/

/-- `performs_of_accept` with the number of primitives given. -/
theorem performs_of_length {i : Instr} {ps : List Prim} {after : Epilogue} {s : State} {n : Nat} (hn : ps.length = n)
    (hne : ps ≠ []) (he : exec i s = .next (present i (acceptAs i ps after) s)) (hr : s.ready) (hq : s.quietFor n) :
    Performs i n s (runEpilogue i after (performAll ps (s.started n))) := by
  subst hn
  exact performs_of_accept hne he hr hq

/-- An accepted instruction leaves the Device as its primitives do. -/
theorem performs_device {i : Instr} {ps : List Prim} {after : Epilogue} {s : State} {n : Nat} (hn : ps.length = n)
    (hne : ps ≠ []) (he : exec i s = .next (present i (acceptAs i ps after) s)) (hr : s.ready) (hq : s.quietFor n) :
    ∃ u, Performs i n s u ∧ u.device = (performAll ps (s.started n)).device :=
  ⟨_, performs_of_length hn hne he hr hq, runEpilogue_device i after _⟩

/-- Before its last primitive an accepted instruction is in flight, and the Device is as its first primitives left it. -/
theorem performs_part_device {i : Instr} {ps : List Prim} {after : Epilogue} {s : State} {m : Nat}
    (hm : m < ps.length) (he : exec i s = .next (present i (acceptAs i ps after) s)) (hr : s.ready)
    (hq : s.quietFor m) :
    ∃ u, Performs i m s u ∧ u.busy = true ∧ u.device = (performAll (ps.take m) (s.started m)).device :=
  ⟨_, performs_part_of_accept hm he hr hq, (busy_iff _).2 nofun, rfl⟩

/-- An instruction whose acceptance lines up a read frame runs it and its epilogue. -/
theorem performs_readFrame {i : Instr} {a : Byte} {after : Epilogue} {s : State}
    (he : exec i s = .next (present i (acceptAs i (readFrame a) after) s)) (hr : s.ready) (hq : s.quietFor 50) :
    Performs i 50 s (runEpilogue i after (performAll (readFrame a) (s.started 50))) :=
  performs_of_length (length_readFrame a) (List.cons_ne_nil _ _) he hr hq

/-- `maskRead` as the statements spell it (44_facade.md R179). -/
theorem maskRead_eq_ite (f : Field) (v : Byte) : maskRead f v = if f = .second then v &&& 0x7F else v := by
  cases f <;> rfl

/-! ### Writes on the reference Device (20_memory.md R70) -/

/-- An instruction whose acceptance lines up a write frame at an even address, on the reference Device. -/
theorem performs_writeFrame_reference {i : Instr} {a v : Byte} {after : Epilogue} {s : State} {r : RefDevice}
    (he : exec i s = .next (present i (acceptAs i (writeFrame a v) after) s)) (hr : s.ready) (hw : s.wireAtRest)
    (hd : s.device = .reference r) (ha : a.getLsbD 0 = false) (hq : s.quietFor 50) :
    ∃ u r', Performs i 50 s u ∧ u.device = .reference r' ∧ ∀ b : Nat, Memory.read r'.reg b =
      if b = a.toNat ∧ (a = 0x8E ∨ Memory.read r.reg 0x8E = 0x00) then v else Memory.read r.reg b := by
  obtain ⟨u, hu, hdev⟩ := performs_device (length_writeFrame a v) (List.cons_ne_nil _ _) he hr hq
  obtain ⟨r', hr', hreg⟩ := writeFrame_reference a v (s.started 50) r hw.1 hw.2 hd ha
  exact ⟨u, r', hu, hdev.trans hr', fun b => by rw [hreg, Memory.read_guarded _ _ _ ha]⟩

/-- Settles O51: each of the instructions lines up a write frame, or the three of a guarded write, whose effect on the
register file is known. -/
theorem referenceWritesStoreOneRegister : Obligations.ReferenceWritesStoreOneRegister := by
  intro addr value s r hr hw hd
  constructor
  · rintro ha hq i (rfl | rfl | ⟨reg, rfl, rfl⟩)
    · exact performs_writeFrame_reference rfl hr hw hd ha hq
    · exact performs_writeFrame_reference rfl hr hw hd ha hq
    · exact performs_writeFrame_reference (exec_writeFrameAt reg value s) hr hw hd ha hq
  · intro ha hq
    obtain ⟨u, hu, hdev⟩ := performs_device (i := .gwrite addr value) (length_guardedWrite addr value)
      (guardedWrite_ne_nil _ _) rfl hr hq
    obtain ⟨r', hr', hread⟩ := guardedWrite_reference addr value (s.started 150) r hw.1 hw.2 hd ha
    exact ⟨u, r', hu, hdev.trans hr', hread⟩

/-! ### Reads on the reference Device (20_memory.md R69) -/

/-- A read address reaches the register at the address below it (20_memory.md R47). -/
theorem regIndex_of_odd (a : Byte) (ha : a.getLsbD 0 = true) : regIndex a = a.toNat - 1 := by
  revert a
  decide

/-- `raddr(f)` is a read address and reaches the register at `waddr(f)` (20_memory.md R49). -/
theorem raddr_odd (f : Field) : (raddr f).getLsbD 0 = true := by cases f <;> rfl

theorem regIndex_raddr (f : Field) : regIndex (raddr f) = (waddr f).toNat := by cases f <;> rfl

/-- An instruction whose acceptance lines up a read frame at an odd address hands the register to its epilogue and leaves the
register file as it was. -/
theorem performs_readFrame_reference {i : Instr} {a : Byte} {after : Epilogue} {s : State} {r : RefDevice}
    (he : exec i s = .next (present i (acceptAs i (readFrame a) after) s)) (hr : s.ready) (hw : s.wireAtRest)
    (hd : s.device = .reference r) (ha : a.getLsbD 0 = true) (hq : s.quietFor 50) :
    ∃ q r', Performs i 50 s (runEpilogue i after q) ∧ q.device = .reference r' ∧ r'.reg = r.reg ∧
      q.tmp.acc = Memory.read r.reg (regIndex a) ∧ q.strict = s.strict := by
  obtain ⟨-, htmp, r', hdev, hreg⟩ := readFrame_reference a (s.started 50) r hw.1 hw.2 hd ha
  exact ⟨_, r', performs_readFrame he hr hq, hdev, hreg, by rw [htmp]; rfl, performAll_strict _ _⟩

/-- Settles O52: a read frame at an odd address puts the register in the accumulator, and each epilogue hands it on. -/
theorem referenceReadsReturnTheRegister : Obligations.ReferenceReadsReturnTheRegister := by
  intro s r hr hw hd hq
  constructor
  · intro addr ha
    constructor
    · obtain ⟨q, r', hp, hdev, hreg, hacc, -⟩ :=
        performs_readFrame_reference (i := .rreg addr) (after := .returnByte) rfl hr hw hd ha hq
      exact ⟨_, r', hp, by simpa using hdev, hreg, by simp [hacc, regIndex_of_odd addr ha]⟩
    · intro i hi
      have he : exec i s = .next (present i (acceptAs i (readFrame addr) .endReadFrame) s) := by
        obtain rfl | ⟨reg, rfl, rfl⟩ := hi
        · rfl
        · exact exec_readFrameAt reg s
      obtain ⟨q, r', hp, hdev, hreg, hacc, -⟩ := performs_readFrame_reference he hr hw hd ha hq
      exact ⟨_, r', hp, by simpa using hdev, hreg, regIndex_of_odd addr ha ▸ hacc⟩
  · intro f
    obtain ⟨q, r', hp, hdev, hreg, hacc, hstrict⟩ :=
      performs_readFrame_reference (exec_getf f s) hr hw hd (raddr_odd f) hq
    rw [regIndex_raddr] at hacc
    exact ⟨_, r', hp, by simpa using hdev, hreg, by simp [hacc, hstrict, maskRead_eq_ite]⟩

/-! ### Wrong-direction frames on the reference Device (20_memory.md R72) -/

/-- Settles O53: the Device ignores the data bits of a write frame at an odd address, and latches free bits in a read frame at
an even one. -/
theorem wrongDirectionFramesOnReference : Obligations.WrongDirectionFramesOnReference := by
  intro addr value s r hr hw hd hq
  constructor
  · intro ha
    obtain ⟨u, hu, hdev⟩ := performs_device (i := .wreg addr value) (length_writeFrame addr value)
      (List.cons_ne_nil _ _) rfl hr hq
    obtain ⟨r', hr', hreg⟩ := writeFrame_reference_odd addr value (s.started 50) r hw.1 hw.2 hd ha
    exact ⟨u, r', hu, hdev.trans hr', hreg⟩
  · intro ha
    obtain ⟨u, hu, hdev⟩ := performs_device (i := .rreg addr) (length_readFrame addr) (List.cons_ne_nil _ _) rfl hr hq
    obtain ⟨r', v, hr', hreg⟩ := readFrame_reference_even addr (s.started 50) r hw.1 hw.2 hd ha
    exact ⟨u, r', v, hu, hdev.trans hr', fun b => by rw [hreg, Memory.read_guarded _ _ _ ha]⟩

/-! ### SETYMD in flight on the reference Device (44_facade.md R187) -/

/-- One field write on the reference Device. -/
theorem fieldWrite_reference (f : Field) (x : Word) (s : State) (r : RefDevice) (hw : s.wireAtRest)
    (hd : s.device = .reference r) :
    (performAll (fieldWrite f x) s).wireAtRest ∧ ∃ r', (performAll (fieldWrite f x) s).device = .reference r' ∧
      ∀ b : Nat, Memory.read r'.reg b =
        if b = 0x8E then 0x00 else if b = (waddr f).toNat then fieldByte f x else Memory.read r.reg b := by
  obtain ⟨-, hclk, hce, -⟩ := guardedWrite_effect (waddr f) (fieldByte f x) s
  have heven : (waddr f).getLsbD 0 = false := by cases f <;> rfl
  exact ⟨⟨hclk, hce⟩, guardedWrite_reference (waddr f) (fieldByte f x) s r hw.1 hw.2 hd heven⟩

/-- The first 300 actions of SETYMD are the writes of the year and the month (44_facade.md R180). -/
theorem take_setDateBody (year month day : Word) :
    (setDateBody year month day).take 300 = fieldWrite .year year ++ fieldWrite .month month :=
  List.take_left' (by simp)

/-- Settles O55: after the year and the month the day's write is still to come. -/
theorem setymdIsNotAtomic : Obligations.SetymdIsNotAtomic := by
  intro year month day s r hr hw hd hq
  obtain ⟨u, hu, hbusy, hdev⟩ := performs_part_device (i := .setymd year month day)
    (ps := setDateBody year month day) (after := .finish) (m := 300) (by simp) rfl hr hq
  rw [take_setDateBody, performAll_append] at hdev
  obtain ⟨hrest, r₁, hd₁, hread₁⟩ := fieldWrite_reference .year year (s.started 300) r hw hd
  obtain ⟨-, r₂, hd₂, hread₂⟩ := fieldWrite_reference .month month _ r₁ hrest hd₁
  refine ⟨u, r₂, hu, hbusy, hdev.trans hd₂, ?_, ?_, ?_⟩ <;>
    simp [hread₂, hread₁, waddr, regOfField, Reg.waddr]

/-! ### The unpowered Device (20_memory.md R73) -/

/-- Settles O58: no primitive changes an unpowered Device, and a read frame returns 0xFF. -/
theorem unpoweredDeviceReadsAllOnes : Obligations.UnpoweredDeviceReadsAllOnes := by
  intro addr value s r hr hd hq
  have hq50 : s.quietFor 50 := State.quietFor_mono hq (by decide)
  have hdev : ∀ ps n, (performAll ps (s.started n)).device = .unpowered r :=
    fun ps n => performAll_unpowered ps (s.started n) r hd
  have hacc : ∀ a, (performAll (readFrame a) (s.started 50)).tmp.acc = 0xFF :=
    fun a => readFrame_unpowered a (s.started 50) r hd
  refine ⟨?_, ?_, fun hstrict f => ?_⟩
  · exact ⟨_, performs_readFrame (i := .rreg addr) (after := .returnByte) rfl hr hq50, by simp [hacc], by simp [hdev]⟩
  · exact ⟨_, performs_of_length (i := .gwrite addr value) (after := .finish) (length_guardedWrite addr value)
      (guardedWrite_ne_nil _ _) rfl hr hq, by simp, by simp [hdev]⟩
  · refine ⟨_, performs_readFrame (exec_getf f s) hr hq50, by simp [readStatus, hstrict], by simp [hdev], ?_⟩
    rw [runEpilogue_readValue_result, hacc, performAll_strict, started_strict, hstrict]
    cases f <;> rfl

end Sys2Proof.Machine

/-!
The statements on the encoding (30_encoding.md): the decoder and the encoder, raw words as bytes, how a step runs a presented
word, the bare frames, the reserved field codes, and the data byte of a calendar write.
-/

namespace Sys2Proof.Machine

/-! ### The address byte of a frame (30_encoding.md R92) -/

theorem mem_mapOrder (r : Reg) : r ∈ mapOrder := by cases r <;> decide

theorem namedAddress_iff (a : Byte) : namedAddress a = true ↔ ∃ r : Reg, a = r.waddr ∨ a = r.raddr := by
  simp [namedAddress, mem_mapOrder]

/-- Bit 0 of an address of the map is the direction (20_memory.md R48). -/
theorem waddr_getLsbD_zero (r : Reg) : r.waddr.getLsbD 0 = false := by cases r <;> rfl

theorem raddr_getLsbD_zero (r : Reg) : r.raddr.getLsbD 0 = true := by cases r <;> rfl

theorem decodeFrame_waddr (r : Reg) (data : Byte) : decodeFrame r.waddr data = writeFrameAt r data := by cases r <;> rfl

theorem decodeFrame_raddr (r : Reg) (data : Byte) : decodeFrame r.raddr data = readFrameAt r := by cases r <;> rfl

/-- At an address that the map does not name, bit 0 alone selects the row. -/
theorem decodeFrame_of_not_named {a : Byte} (h : namedAddress a = false) (data : Byte) :
    decodeFrame a data = if a.getLsbD 0 then .frameReadAny a else .frameWriteAny a data := by
  unfold decodeFrame
  split
  case h_21 => rfl
  all_goals exact absurd h (by decide)

theorem decodeFrame_of_even {a : Byte} (hb : a.getLsbD 0 = false) (hn : namedAddress a = false) (data : Byte) :
    decodeFrame a data = .frameWriteAny a data := by
  rw [decodeFrame_of_not_named hn, hb]
  rfl

theorem decodeFrame_of_odd {a : Byte} (hb : a.getLsbD 0 = true) (hn : namedAddress a = false) (data : Byte) :
    decodeFrame a data = .frameReadAny a := by
  rw [decodeFrame_of_not_named hn, hb]
  rfl

/-- What an address byte decodes to, whatever the data byte. -/
theorem decodeFrame_cases (a : Byte) :
    (∃ r : Reg, a = r.waddr ∧ ∀ data, decodeFrame a data = writeFrameAt r data) ∨
    (∃ r : Reg, a = r.raddr ∧ ∀ data, decodeFrame a data = readFrameAt r) ∨
    (a.getLsbD 0 = false ∧ namedAddress a = false ∧ ∀ data, decodeFrame a data = .frameWriteAny a data) ∨
    (a.getLsbD 0 = true ∧ namedAddress a = false ∧ ∀ data, decodeFrame a data = .frameReadAny a) := by
  cases hn : namedAddress a with
  | true =>
    obtain ⟨r, rfl | rfl⟩ := (namedAddress_iff a).1 hn
    · exact .inl ⟨r, rfl, decodeFrame_waddr r⟩
    · exact .inr (.inl ⟨r, rfl, decodeFrame_raddr r⟩)
  | false =>
    cases hb : a.getLsbD 0 with
    | false => exact .inr (.inr (.inl ⟨rfl, rfl, decodeFrame_of_even hb hn⟩))
    | true => exact .inr (.inr (.inr ⟨rfl, rfl, decodeFrame_of_odd hb hn⟩))

/-- The data byte of a read frame is the Device's (30_encoding.md R78): at an odd address the decoder ignores it. -/
theorem decodeFrame_ignores_data_of_odd {a : Byte} (h : a.getLsbD 0 = true) (data data' : Byte) :
    decodeFrame a data = decodeFrame a data' := by
  obtain ⟨r, rfl, -⟩ | ⟨r, -, hd⟩ | ⟨hb, -, -⟩ | ⟨-, -, hd⟩ := decodeFrame_cases a
  · exact absurd ((waddr_getLsbD_zero r).symm.trans h) nofun
  · rw [hd, hd]
  · exact absurd (hb.symm.trans h) nofun
  · rw [hd, hd]

theorem writeFrameAt_wf (r : Reg) (data : Byte) : (writeFrameAt r data).wf = true := by cases r <;> rfl

theorem readFrameAt_wf (r : Reg) : (readFrameAt r).wf = true := by cases r <;> rfl

theorem frameWriteAny_wf_iff (a data : Byte) :
    (Instr.frameWriteAny a data).wf = true ↔ a.getLsbD 0 = false ∧ namedAddress a = false := by
  simp only [Instr.wf, Bool.and_eq_true, Bool.not_eq_true']

theorem frameReadAny_wf_iff (a : Byte) :
    (Instr.frameReadAny a).wf = true ↔ a.getLsbD 0 = true ∧ namedAddress a = false := by
  simp only [Instr.wf, Bool.and_eq_true, Bool.not_eq_true']

theorem decodeFrame_wf (a data : Byte) : (decodeFrame a data).wf = true := by
  obtain ⟨r, -, hd⟩ | ⟨r, -, hd⟩ | ⟨hb, hn, hd⟩ | ⟨hb, hn, hd⟩ := decodeFrame_cases a <;> rw [hd]
  · exact writeFrameAt_wf r data
  · exact readFrameAt_wf r
  · exact (frameWriteAny_wf_iff a data).2 ⟨hb, hn⟩
  · exact (frameReadAny_wf_iff a).2 ⟨hb, hn⟩

/-! ### The command word (30_encoding.md R80 to R84, R88) -/

/-- A byte laid in a slot is read back (30_encoding.md R81). -/
@[simp] theorem byteSlot_setWidth (v : Byte) : byteSlot (v.setWidth 16) = v := by simp [byteSlot]

/-- A field code laid in a slot is read back (30_encoding.md R81). -/
@[simp] theorem fieldSlot_setWidth (code : BitVec 3) : fieldSlot (code.setWidth 16) = code := by simp [fieldSlot]

theorem decodeCommand_wf (c : CmdWord) : (decodeCommand c).wf = true := by
  unfold decodeCommand
  split <;> rfl

/-- The opcodes 0x10 to 0x1F are reserved (30_encoding.md R84). -/
theorem decodeCommand_of_sixteen_le {c : CmdWord} (h : 16 ≤ c.op.toNat) :
    decodeCommand c = .reserved10to1F (c.op.setWidth 4) := by
  unfold decodeCommand
  split
  case h_17 => rfl
  all_goals
    rename_i hop
    exact absurd (hop ▸ h) (by decide)

/-- The opcode 0x00 is reserved (30_encoding.md R84). -/
theorem decodeCommand_of_op_zero {c : CmdWord} (h : c.op = 0x00) : decodeCommand c = .reserved00 := by
  unfold decodeCommand
  rw [h]
  rfl

/-- The opcodes 0x01 to 0x0F are commands (30_encoding.md R82). -/
theorem decodeCommand_ne_reserved {c : CmdWord} (h0 : c.op ≠ 0x00) (h : c.op.toNat < 16) :
    decodeCommand c ≠ .reserved00 ∧ ∀ low, decodeCommand c ≠ .reserved10to1F low := by
  unfold decodeCommand
  split
  case h_1 hop => exact absurd hop h0
  case h_17 =>
    exfalso
    simp only [BitVec.toNat_eq, BitVec.reduceToNat, imp_false] at *
    omega
  all_goals exact ⟨nofun, nofun⟩

/-- Settles O4: the opcode lies in one of three ranges, and each decodes in its own way. -/
theorem reservedOpcodesAreExactly : Obligations.ReservedOpcodesAreExactly := by
  intro c
  by_cases h : 16 ≤ c.op.toNat
  · have hne : c.op ≠ 0x00 := fun h0 => absurd (h0 ▸ h) (by decide)
    rw [decodeCommand_of_sixteen_le h]
    refine ⟨⟨fun h0 => absurd h0 hne, nofun⟩, ⟨fun _ => ⟨_, rfl⟩, fun _ => h⟩, fun low hlow => ?_⟩
    cases hlow
    have hbits : c.op.toNat < 32 := c.op.isLt
    rw [BitVec.toNat_setWidth]
    omega
  · by_cases h0 : c.op = 0x00
    · rw [decodeCommand_of_op_zero h0]
      exact ⟨⟨fun _ => rfl, fun _ => h0⟩, ⟨fun hge => absurd hge h, nofun⟩, nofun⟩
    · obtain ⟨hne, hlow⟩ := decodeCommand_ne_reserved h0 (by omega)
      exact ⟨⟨fun e => absurd e h0, fun e => absurd e hne⟩,
        ⟨fun hge => absurd hge h, fun ⟨low, e⟩ => absurd e (hlow low)⟩, fun low e => absurd e (hlow low)⟩

/-! ### Decoding what was encoded -/

/-- The opcode of a reserved command keeps its low part. -/
theorem decode_encode_reserved10to1F (low : BitVec 4) : decode (encode (.reserved10to1F low)) = .reserved10to1F low := by
  revert low
  decide

/-- Settles O1: the opcode or the address byte selects the row, and each operand comes back from its slot. -/
theorem decodeEncodeRoundTrip : Obligations.DecodeEncodeRoundTrip := by
  intro i h
  cases i with
  | reserved10to1F low => exact decode_encode_reserved10to1F low
  | frameWriteAny a data =>
    obtain ⟨hb, hn⟩ := (frameWriteAny_wf_iff a data).1 h
    exact decodeFrame_of_even hb hn data
  | frameReadAny a =>
    obtain ⟨hb, hn⟩ := (frameReadAny_wf_iff a).1 h
    exact decodeFrame_of_odd hb hn 0
  | wbyte _ | rreg _ | dec _ | wreg _ _ | gwrite _ _ => simp [encode, decode, decodeCommand]
  | clamp _ _ | wrap _ _ | getf _ => simp [encode, decode, decodeCommand]
  | rbyte | enc _ | setymd _ _ _ | sethms _ _ _ | setdt _ _ _ _ _ _ _ | start | pause | reserved00 => rfl
  | frameWrSecond _ | frameWrMinute _ | frameWrHour _ | frameWrDay _ | frameWrMonth _ | frameWrWeekday _
  | frameWrYear _ | frameWrWp _ | frameWrControl _ | frameWrRamBase _ => rfl
  | frameRdSecond | frameRdMinute | frameRdHour | frameRdDay | frameRdMonth | frameRdWeekday | frameRdYear
  | frameRdWp | frameRdControl | frameRdRamBase => rfl

theorem decode_wf (r : Request) : (decode r).wf = true := by
  cases r with
  | command c => exact decodeCommand_wf c
  | frame a data => exact decodeFrame_wf a data

/-- Settles O3: the round trip of O1 holds of every decoded instruction, since each is well-formed. -/
theorem decodedIsWellFormed : Obligations.DecodedIsWellFormed := fun r =>
  ⟨decode_wf r, decodeEncodeRoundTrip (decode r) (decode_wf r)⟩

/-- Settles O5: each word is a closed input of the decoder. -/
theorem specWordsDecode : Obligations.SpecWordsDecode := by
  unfold Obligations.SpecWordsDecode
  decide

/-! ### Raw words as bytes (assumption log 13) -/

/-- A slot is its two bytes, low byte first. -/
@[simp] theorem slotOfBytes_bytes (a : Word) : slotOfBytes (a.setWidth 8) ((a >>> 8).setWidth 8) = a := by
  unfold slotOfBytes
  ext i hi
  by_cases h : i < 8
  · simp [h, BitVec.getLsbD_eq_getElem hi]
  · have hhigh : i - 8 < 8 := by omega
    have hback : 8 + (i - 8) = i := by omega
    simp [h, hhigh, hback, BitVec.getLsbD_eq_getElem hi]

/-- The first byte of a command is its opcode. -/
theorem opByte_lt (op : BitVec 5) : op.setWidth 8 < 0x20#8 := by
  revert op
  decide

theorem requestOfBytes_command (c : CmdWord) (rest : List Byte) :
    requestOfBytes (bytesOfRequest (.command c) ++ rest) = .ok (.command c, rest) := by
  simp [bytesOfRequest, bytesOfSlot, requestOfBytes, opByte_lt]

/-- A frame's bytes are read back, but for the data byte of a read frame, which is not written. -/
theorem requestOfBytes_frame {a : Byte} (ha : 0x20 ≤ a.toNat) (data : Byte) (rest : List Byte) :
    requestOfBytes (bytesOfRequest (.frame a data) ++ rest) =
      .ok (.frame a (if a.getLsbD 0 then 0 else data), rest) := by
  have hlt : ¬ a < 0x20 := by simpa [BitVec.lt_def] using ha
  cases hb : a.getLsbD 0 with
  | false =>
    simp only [bytesOfRequest, hb, Bool.false_eq_true, if_false, List.cons_append, List.nil_append, requestOfBytes,
      if_neg hlt]
  | true =>
    simp only [bytesOfRequest, hb, if_true, List.cons_append, List.nil_append, requestOfBytes, if_neg hlt]

/-- The bytes of a raw word decode as the word does. -/
theorem decodeBytes_bytesOfRequest {r : Request} (hr : ∀ a data, r = .frame a data → 0x20 ≤ a.toNat) (rest : List Byte) :
    decodeBytes (bytesOfRequest r ++ rest) = .ok (decode r, rest) := by
  cases r with
  | command c => rw [decodeBytes, requestOfBytes_command]
  | frame a data =>
    rw [decodeBytes, requestOfBytes_frame (hr a data rfl)]
    cases hb : a.getLsbD 0 with
    | false => rfl
    | true =>
      show Except.ok (decodeFrame a 0, rest) = .ok (decodeFrame a data, rest)
      rw [decodeFrame_ignores_data_of_odd hb 0 data]

/-- Settles O2: the bytes decode as the raw word does, and the raw word decodes to the instruction (O1). -/
theorem bytesRoundTrip : Obligations.BytesRoundTrip := by
  intro i rest hi ha
  rw [encodeBytes, decodeBytes_bytesOfRequest ha, decodeEncodeRoundTrip i hi]

/-! ### The presented word (30_encoding.md R91) -/

theorem step_of_present {s : State} {r : Request} {rest : List PortInput} (h : s.inputs = .present r :: rest) :
    step s = exec (decode r) { s with inputs := rest } := by rw [step, h]

theorem step_of_no_input {s : State} (h : s.inputs = []) : step s = .next (quietStep s) := by rw [step, h]

theorem step_of_quiet_input {s : State} {rest : List PortInput} (h : s.inputs = .quiet :: rest) :
    step s = .next (quietStep { s with inputs := rest }) := by rw [step, h]

/-- A table word is presented in the very next step (assumption log 14). -/
theorem step_withFetchWord {nbits w : Nat} {i : Instr} (h : decodeTableWord nbits w = some i) (s : State) :
    step (s.withFetchWord nbits w) = exec i s := by
  obtain ⟨r, hr, rfl⟩ := Option.map_eq_some_iff.1 h
  rw [State.withFetchWord, hr]
  exact step_of_present rfl

/-- Settles O9: a step reads one input off the front of the queue. -/
theorem stepRunsThePresentedInstruction : Obligations.StepRunsThePresentedInstruction :=
  ⟨fun _ _ _ => step_of_present, fun _ => step_of_no_input, fun _ _ => step_of_quiet_input,
    fun s _ _ _ h => step_withFetchWord h s⟩

/-! ### The bare frames (30_encoding.md R78, R79) -/

/-- What follows the last action of a bare frame ends it and writes nothing of a command's (assumption log 12). -/
theorem frameOver_of_bare {ps : List Prim} {after : Epilogue} (hbare : (Cont.mk ps after).bare = true) (i : Instr)
    (n : Nat) (s : State) : FrameOver n s (runEpilogue i after (performAll ps (s.started n))) := by
  cases after with
  | endWriteFrame | endReadFrame => simp [FrameOver, runEpilogue]
  | finish | returnByte | readValue _ | writeBack _ => cases hbare

/-- An instruction whose acceptance lines up a write frame and no epilogue of a command's. -/
theorem performs_bareWriteFrame {i : Instr} {a v : Byte} {s : State}
    (he : exec i s = .next (present i (acceptAs i (writeFrame a v) .endWriteFrame) s)) (hr : s.ready)
    (hq : s.quietFor 50) :
    ∃ u, Performs i 50 s u ∧ FrameOver 50 s u ∧ u.clkQ = false ∧ u.ceQ = false ∧ u.dioQ = some (v.getLsbD 7) ∧
      u.trace = s.trace ++ frameWritten a v := by
  obtain ⟨htrace, hclk, hce, hdio, -⟩ := writeFrame_effect a v (s.started 50)
  exact ⟨_, performs_of_length (length_writeFrame a v) (List.cons_ne_nil _ _) he hr hq,
    frameOver_of_bare rfl i 50 s, by simpa using hclk, by simpa using hce, by simpa using hdio, by simpa using htrace⟩

/-- Settles O31: each bare write frame lines up the write frame at its address. -/
theorem bareWriteFramesAreR79 : Obligations.BareWriteFramesAreR79 := fun data s hr hq =>
  ⟨fun reg => performs_bareWriteFrame (exec_writeFrameAt reg data s) hr hq,
    fun _ => performs_bareWriteFrame rfl hr hq⟩

/-- An instruction whose acceptance lines up a read frame and hands the byte on as `raw`. -/
theorem performs_bareReadFrame {i : Instr} {a : Byte} {s : State}
    (he : exec i s = .next (present i (acceptAs i (readFrame a) .endReadFrame) s)) (hr : s.ready) (hq : s.quietFor 50) :
    ∃ u v, Performs i 50 s u ∧ FrameOver 50 s u ∧ u.tmp.raw = v ∧ u.clkQ = false ∧ u.ceQ = false ∧
      u.dioQ = some (a.getLsbD 7) ∧ u.trace = s.trace ++ frameRead a v := by
  obtain ⟨v, htrace, hclk, hce, hdio, htmp⟩ := readFrame_effect a (s.started 50)
  exact ⟨_, v, performs_readFrame he hr hq, frameOver_of_bare rfl i 50 s, congrArg Temps.acc htmp,
    by simpa using hclk, by simpa using hce, by simpa using hdio, by simpa using htrace⟩

/-- Settles O32: each bare read frame lines up the read frame at its address. -/
theorem bareReadFramesAreR78 : Obligations.BareReadFramesAreR78 := fun s hr hq =>
  ⟨fun reg => performs_bareReadFrame (exec_readFrameAt reg s) hr hq, fun _ => performs_bareReadFrame rfl hr hq⟩

/-! ### Field codes (30_encoding.md R83, R85) -/

/-- Settles O6: the field codes are read off the definition (30_encoding.md R83). -/
theorem fieldCodesAreRegisterOrder : Obligations.FieldCodesAreRegisterOrder :=
  ⟨rfl, rfl, rfl, rfl, rfl, rfl, rfl, rfl⟩

/-- The codes 6 and 7 name no field (30_encoding.md R85). -/
theorem fieldOfCode_eq_none_iff (code : BitVec 3) : fieldOfCode code = none ↔ 6 ≤ code.toNat := by
  revert code
  decide

/-- A ready engine refuses a command with a reserved field code, whatever its acceptance is otherwise. -/
theorem present_withField_of_reserved {i : Instr} {code : BitVec 3} {accept : Field → State → State} {s : State}
    (hr : s.ready) (hcode : 6 ≤ code.toNat) :
    present i (withField code accept) s = raise .illegalField (code.setWidth 16) { s with done := false } := by
  rw [present_ready hr, withField, (fieldOfCode_eq_none_iff code).2 hcode]

/-- Settles O13: CLAMP, WRAP and GETF take their field operand alike. -/
theorem reservedFieldCodesFault : Obligations.ReservedFieldCodesFault := by
  intro s code x hr hcode faulted
  have hraise : raise .illegalField (code.setWidth 16) { s with done := false } = faulted := by
    rw [← BitVec.ofNat_toNat]
    rfl
  have hpresent : ∀ i accept, present i (withField code accept) s = faulted := fun _ _ =>
    (present_withField_of_reserved hr hcode).trans hraise
  exact ⟨congrArg _ (hpresent _ _), congrArg _ (hpresent _ _), congrArg _ (hpresent _ _)⟩

/-! ### The data byte of a calendar write (30_encoding.md R87) -/

/-- In the domain of `decimalToPacked` the byte does not overflow (43_fieldcodec.md R146). -/
theorem decimalToPacked_toNat {n : Nat} (h : n < 100) : (decimalToPacked n).toNat = n / 10 * 16 + n % 10 := by
  rw [decimalToPacked, BitVec.toNat_ofNat]
  omega

theorem fieldModulus_pos (f : Field) : 0 < fieldModulus f := by cases f <;> decide

theorem fieldModulus_le (f : Field) : fieldModulus f ≤ 100 := by cases f <;> decide

/-- A wrapped operand is in the domain of `decimalToPacked` (43_fieldcodec.md R156). -/
theorem fieldByte_toNat (f : Field) (x : Word) :
    (fieldByte f x).toNat = x.toNat % fieldModulus f / 10 * 16 + x.toNat % fieldModulus f % 10 :=
  decimalToPacked_toNat ((Nat.mod_lt _ (fieldModulus_pos f)).trans_le (fieldModulus_le f))

/-- Settles O39: the seconds wrap below 60, so their tens digit is at most 5. -/
theorem calendarBytesClearTheHaltBit : Obligations.CalendarBytesClearTheHaltBit := by
  intro f x
  refine ⟨fieldByte_toNat f x, ?_⟩
  rintro rfl
  have hval := fieldByte_toNat .second x
  have hwrap : x.toNat % fieldModulus .second < 60 := Nat.mod_lt _ (by decide)
  have hlt : (fieldByte .second x).toNat < 2 ^ 7 := by omega
  rw [← BitVec.testBit_toNat]
  exact Nat.testBit_lt_two_pow hlt

end Sys2Proof.Machine

/-!
The statements on BitLink (40_bitlink.md): what WBYTE and RBYTE put on the wire and return, and that outside a frame they
reach no register.
-/

namespace Sys2Proof.Machine

/-! ### A completed command -/

/-- A command whose epilogue lines up nothing further has completed, whatever its primitives were. -/
theorem completed_of_command {after : Epilogue} {ps : List Prim} (hafter : ∀ op, after ≠ .writeBack op)
    (hbare : (Cont.mk ps after).bare = false) (i : Instr) (n : Nat) (s : State) :
    Completed n s (runEpilogue i after (performAll ps (s.started n))) := by
  obtain ⟨hidle, hdone⟩ :=
    runEpilogue_idle hafter i ps (s := performAll ps (s.started n)) (by rw [performAll_done, started_done])
  rw [hbare] at hdone
  exact ⟨hidle, hdone, by simp, by simp, by simp, by simp⟩

/-! ### Byte transfers as accepted instructions -/

theorem writeByte_ne_nil (v : Byte) : writeByte v ≠ [] := List.ne_nil_of_length_eq_add_one (length_writeByte v)

theorem readByte_ne_nil : readByte ≠ [] := List.ne_nil_of_length_eq_add_one length_readByte

/-- Settles O24: WBYTE lines up a writeByte and returns nothing. -/
theorem wbyteShiftsOutItsByte : Obligations.WbyteShiftsOutItsByte := by
  intro value s hr hq
  obtain ⟨htrace, hclk, hce, hdio, -⟩ := writeByte_effect value (s.started 24)
  refine ⟨_, performs_of_length (length_writeByte value) (writeByte_ne_nil value) rfl hr hq,
    completed_of_command (after := .finish) nofun rfl _ 24 s, rfl, ?_, ?_⟩
  · simp
  · simp [htrace, hclk, hce, hdio]

/-- Settles O25: RBYTE lines up a readByte and returns the byte it assembled. -/
theorem rbyteReturnsTheSampledByte : Obligations.RbyteReturnsTheSampledByte := by
  intro s hr hq
  obtain ⟨v, htrace, hclk, hce, hdio, htmp⟩ := readByte_effect (s.started 24)
  refine ⟨_, v, performs_of_length length_readByte readByte_ne_nil rfl hr hq,
    completed_of_command (after := .returnByte) nofun rfl _ 24 s, rfl, ?_, ?_⟩
  · simp [htmp]
  · simp [htrace, hclk, hce, hdio]

/-! ### Byte transfers outside a frame (40_bitlink.md R112, 20_memory.md R71) -/

/-- A byte transfer leaves CE alone if each of its bits does. -/
theorem not_ce_of_mem_bits {bit : Fin 8 → List Prim} (hbit : ∀ i, ∀ p ∈ bit i, ∀ level, p ≠ .ce level) {p : Prim}
    (hp : p ∈ bitOrder.flatMap bit) (level : Bool) : p ≠ .ce level := by
  obtain ⟨i, -, hi⟩ := List.mem_flatMap.1 hp
  exact hbit i p hi level

theorem not_ce_of_mem_writeByte {v : Byte} {p : Prim} (hp : p ∈ writeByte v) (level : Bool) : p ≠ .ce level :=
  not_ce_of_mem_bits (by simp [writeBit]) hp level

theorem not_ce_of_mem_readByte {p : Prim} (hp : p ∈ readByte) (level : Bool) : p ≠ .ce level :=
  not_ce_of_mem_bits (by simp [readBit]) hp level

/-- An instruction that never sets CE, accepted while CE is 0, reaches no register. -/
theorem performs_outside_frame {i : Instr} {ps : List Prim} {after : Epilogue} {s : State} {n : Nat}
    (hps : ∀ p ∈ ps, ∀ level, p ≠ .ce level) (hce : s.ceQ = false) (hn : ps.length = n) (hne : ps ≠ [])
    (he : exec i s = .next (present i (acceptAs i ps after) s)) (hr : s.ready) (hq : s.quietFor n) :
    ∃ u, Performs i n s u ∧ u.device.registers = s.device.registers := by
  obtain ⟨u, hu, hdev⟩ := performs_device hn hne he hr hq
  obtain ⟨-, hreg⟩ := performAll_outside_frame ps hps (s.started n) hce
  exact ⟨u, hu, hdev ▸ hreg⟩

/-- Settles O27: neither byte transfer sets CE. -/
theorem bitTransfersReachNoRegister : Obligations.BitTransfersReachNoRegister := by
  rintro value s hr ⟨-, hce⟩ hq
  exact ⟨performs_outside_frame (fun _ => not_ce_of_mem_writeByte) hce (length_writeByte value) (writeByte_ne_nil value)
      rfl hr hq,
    performs_outside_frame (fun _ => not_ce_of_mem_readByte) hce length_readByte readByte_ne_nil rfl hr hq⟩

end Sys2Proof.Machine

/-!
The statements on RegisterTransport (41_transport.md): RREG and WREG are one frame each, at the address as given.
-/

namespace Sys2Proof.Machine

/-- Settles O28: RREG lines up a read frame at its address and returns the byte that the frame assembled. -/
theorem rregReadsOneFrame : Obligations.RregReadsOneFrame := by
  intro addr s hr hq
  obtain ⟨v, htrace, hclk, hce, hdio, htmp⟩ := readFrame_effect addr (s.started 50)
  refine ⟨_, v, performs_readFrame rfl hr hq, completed_of_command (after := .returnByte) nofun rfl _ 50 s, rfl, ?_, ?_⟩
  · simp [htmp]
  · simp [htrace, hclk, hce, hdio]

/-- Settles O29: WREG lines up a write frame at its address and returns nothing. -/
theorem wregWritesOneFrame : Obligations.WregWritesOneFrame := by
  intro addr value s hr hq
  obtain ⟨htrace, hclk, hce, hdio, -⟩ := writeFrame_effect addr value (s.started 50)
  refine ⟨_, performs_of_length (length_writeFrame addr value) (List.cons_ne_nil _ _) rfl hr hq,
    completed_of_command (after := .finish) nofun rfl _ 50 s, rfl, ?_, ?_⟩
  · simp
  · simp [htrace, hclk, hce, hdio]

end Sys2Proof.Machine

/-!
The statement on WriteGuard (42_writeguard.md): GWRITE puts its write between two that store 0x00 in the write-protect
register.
-/

namespace Sys2Proof.Machine

/-- Settles O30: GWRITE lines up a guarded write, whose three frames are those of 42_writeguard.md R136, and returns
nothing. -/
theorem gwriteBracketsTheWrite : Obligations.GwriteBracketsTheWrite := by
  intro addr value s hr hq
  obtain ⟨htrace, hclk, hce, hdio, -⟩ := guardedWrite_effect addr value (s.started 150)
  refine ⟨_, performs_of_length (length_guardedWrite addr value) (guardedWrite_ne_nil addr value) rfl hr hq,
    completed_of_command (after := .finish) nofun rfl _ 150 s, rfl, ?_, ?_⟩
  · simp
  · simp [htrace, hclk, hce, hdio, guardWritten]

end Sys2Proof.Machine

/-!
The statements on FieldCodec (43_fieldcodec.md): the packed-decimal conversions, the read and write policies, the four
commands that complete in the step of their acceptance, and that a set value reads back wrapped and clamped.
-/

namespace Sys2Proof.Machine

/-! ### The packed-decimal conversions (43_fieldcodec.md R146, R147, R161) -/

/-- The two nibbles of a byte as numbers. -/
theorem packedToDecimal_eq (b : Byte) : packedToDecimal b = b.toNat / 16 * 10 + b.toNat % 16 := by
  have hlow : (b &&& 0x0F).toNat = b.toNat % 16 := Nat.and_two_pow_sub_one_eq_mod b.toNat 4
  have hhigh : (b >>> 4).toNat = b.toNat / 16 := Nat.shiftRight_eq_div_pow b.toNat 4
  rw [packedToDecimal, hlow, hhigh]

theorem packedToDecimal_decimalToPacked {n : Nat} (h : n ≤ 99) : packedToDecimal (decimalToPacked n) = n := by
  rw [packedToDecimal_eq, decimalToPacked_toNat (Nat.lt_succ_of_le h)]
  omega

theorem decimalToPacked_packedToDecimal {b : Byte} (hhigh : b.toNat / 16 ≤ 9) (hlow : b.toNat % 16 ≤ 9) :
    decimalToPacked (packedToDecimal b) = b := by
  refine BitVec.eq_of_toNat_eq ?_
  rw [packedToDecimal_eq, decimalToPacked_toNat (by omega)]
  omega

/-- Settles O37: with both digits at most 9 each conversion takes the two digits apart that the other put together. -/
theorem packedRoundTrips : Obligations.PackedRoundTrips :=
  ⟨fun _ hhigh hlow => decimalToPacked_packedToDecimal hhigh hlow, fun _ h => packedToDecimal_decimalToPacked h⟩

/-! ### The read and write policies (43_fieldcodec.md R151 to R157) -/

/-- Settles O8: the bounds and moduli are read off the definitions (43_fieldcodec.md R151). -/
theorem readRangesAndWriteModuli : Obligations.ReadRangesAndWriteModuli :=
  fun _ => ⟨rfl, rfl, rfl, rfl, rfl, rfl, rfl, rfl, rfl, rfl, rfl, rfl⟩

theorem fieldLo_le_fieldHi (f : Field) : fieldLo f ≤ fieldHi f := by cases f <;> decide

theorem clampTo_bounds {lo hi : Nat} (h : lo ≤ hi) (x : Nat) : lo ≤ clampTo x lo hi ∧ clampTo x lo hi ≤ hi :=
  ⟨le_min (le_max_right x lo) h, min_le_right _ hi⟩

/-- Only the year's clamp adds anything to the clamped value (43_fieldcodec.md R153). -/
theorem clampRead_of_ne_year {f : Field} (h : f ≠ .year) (d : Nat) :
    clampRead f d = clampTo d (fieldLo f) (fieldHi f) := by
  cases f with
  | year => exact absurd rfl h
  | second | minute | hour | day | month => rfl

/-- Settles O38: a clamp with `lo ≤ hi` lies between them, and the year adds 2000 to at most 99. -/
theorem clampedReadsStayInRange : Obligations.ClampedReadsStayInRange := by
  intro f d
  refine ⟨fun h => ?_, ?_⟩
  · rw [clampRead_of_ne_year h]
    exact clampTo_bounds (fieldLo_le_fieldHi f) d
  · exact ⟨Nat.le_add_right 2000 _, Nat.add_le_add_left (min_le_right d 99) 2000⟩

theorem inRange_iff (f : Field) (d : Nat) : inRange f d = true ↔ fieldLo f ≤ d ∧ d ≤ fieldHi f := by
  simp [inRange]

/-- The read policy reports a value only in strict mode and out of range (43_fieldcodec.md R155). -/
theorem strict_and_not_inRange_iff (strict : Bool) (f : Field) (d : Nat) :
    (strict && !inRange f d) = true ↔ strict = true ∧ ¬(fieldLo f ≤ d ∧ d ≤ fieldHi f) := by
  rw [Bool.and_eq_true, Bool.not_eq_true', ← Bool.not_eq_true, inRange_iff]

@[simp] theorem readStatus_lenient (f : Field) (d : Nat) : readStatus false f d = .ok := rfl

@[simp] theorem readResult_lenient (f : Field) (d : Nat) :
    readResult false f d = BitVec.ofNat 16 (clampRead f d) := rfl

/-! ### The commands that complete in the step of their acceptance -/

/-- A ready engine hands the field that a code names to the command's acceptance. -/
theorem present_withField_codeOfField {i : Instr} {f : Field} {accept : Field → State → State} {s : State}
    (hr : s.ready) : present i (withField (codeOfField f) accept) s = accept f { s with done := false } := by
  rw [present_ready hr, withField, fieldOfCode_codeOfField]

/-- Completing at once leaves a ready engine idle, as it was. -/
theorem completeWith_of_ready {s : State} (hr : s.ready) (v : Word) (status : Status) :
    completeWith v status { s with done := false } = { s with done := true, status := status, result := some v } := by
  rw [completeWith, ← hr.1]

/-- Settles O33: up to 99 ENC raises no fault, and its byte, widened to a word, is the number it packs. -/
theorem encPacksTwoDigits : Obligations.EncPacksTwoDigits := by
  intro n s hr hn
  have hword : (decimalToPacked n.toNat).setWidth 16 = BitVec.ofNat 16 (n.toNat / 10 * 16 + n.toNat % 10) := by
    rw [← BitVec.ofNat_toNat, decimalToPacked_toNat (Nat.lt_succ_of_le hn)]
  rw [exec, execEnc, present_ready hr, if_neg (Nat.not_lt.2 hn), hword, completeWith_of_ready hr]

/-- Settles O34: DEC completes with the decoded number, whatever the nibbles. -/
theorem decUnpacksAnyByte : Obligations.DecUnpacksAnyByte := by
  intro byte s hr
  rw [exec, execDec, present_ready hr, completeWith_of_ready hr, packedToDecimal_eq]

/-- Settles O35: CLAMP completes with the status and the result of the read policy. -/
theorem clampAppliesTheReadPolicy : Obligations.ClampAppliesTheReadPolicy := by
  intro f d s hr
  rw [exec, execClamp, present_withField_codeOfField hr, completeRead, completeWith_of_ready hr, readStatus, readResult]
  simp only [strict_and_not_inRange_iff]
  split
  · rw [BitVec.ofNat_toNat, BitVec.setWidth_eq]
  · rfl

/-- Settles O36: WRAP completes with the wrapped operand and does not read `STRICT`. -/
theorem wrapReducesModuloTheBound : Obligations.WrapReducesModuloTheBound := by
  intro f x s hr
  rw [exec, execWrap, present_withField_codeOfField hr, completeWith_of_ready hr, wrapField]

/-! ### A set value reads back wrapped and clamped (43_fieldcodec.md R162) -/

/-- Masking the halt bit does not change a calendar byte: the seconds byte never has it (44_facade.md R186). -/
theorem maskRead_fieldByte (f : Field) (x : Word) : maskRead f (fieldByte f x) = fieldByte f x := by
  have hmask : ∀ b : Byte, b.getLsbD 7 = false → b &&& 0x7F = b := by decide
  obtain ⟨-, hhalt⟩ := calendarBytesClearTheHaltBit f x
  rw [maskRead_eq_ite]
  split
  · exact hmask _ (hhalt ‹_›)
  · rfl

/-- The byte of a calendar write decodes to the wrapped operand. -/
theorem packedToDecimal_fieldByte (f : Field) (x : Word) :
    packedToDecimal (fieldByte f x) = x.toNat % fieldModulus f := by
  have hlt : x.toNat % fieldModulus f < fieldModulus f := Nat.mod_lt _ (fieldModulus_pos f)
  exact packedToDecimal_decimalToPacked (Nat.le_of_lt_succ (hlt.trans_le (fieldModulus_le f)))

/-- The operand of SETDT that each calendar field is set to (44_facade.md R182). -/
def setdtOperand (year month day hour minute second : Word) : Field → Word
  | .second => second
  | .minute => minute
  | .hour => hour
  | .day => day
  | .month => month
  | .year => year

/-- The body of SETDT on the reference Device: each calendar register holds its operand, wrapped and packed, protection is
off, and every other register reads as before (44_facade.md R182, R183). -/
theorem setdtBody_reference (year month day hour minute second : Word) (s : State) (r : RefDevice) (hw : s.wireAtRest)
    (hd : s.device = .reference r) :
    (performAll (setDateBody year month day ++ setTimeBody hour minute second) s).wireAtRest ∧
    ∃ r', (performAll (setDateBody year month day ++ setTimeBody hour minute second) s).device = .reference r' ∧
      ∀ b : Nat, Memory.read r'.reg b =
        if b = 0x8E then 0x00 else if b = 0x80 then fieldByte .second second
        else if b = 0x82 then fieldByte .minute minute else if b = 0x84 then fieldByte .hour hour
        else if b = 0x86 then fieldByte .day day else if b = 0x88 then fieldByte .month month
        else if b = 0x8C then fieldByte .year year else Memory.read r.reg b := by
  obtain ⟨r₁, hd₁, hclk₁, hce₁, hread₁⟩ := fieldWrites_reference .year .month .day year month day s r hw.1 hw.2 hd
  obtain ⟨r₂, hd₂, hclk₂, hce₂, hread₂⟩ :=
    fieldWrites_reference .hour .minute .second hour minute second _ r₁ hclk₁ hce₁ hd₁
  rw [performAll_append]
  refine ⟨⟨hclk₂, hce₂⟩, r₂, hd₂, fun b => ?_⟩
  rw [hread₂, hread₁]
  by_cases hb : b = 0x8E <;> simp [hb, waddr, regOfField, Reg.waddr]

/-- SETDT on the reference Device leaves a ready engine, a wire at rest, and its operands in the calendar registers. -/
theorem performs_setdt_reference (year month day weekday hour minute second : Word) {s : State} {r : RefDevice}
    (hr : s.ready) (hw : s.wireAtRest) (hd : s.device = .reference r) (hq : s.quietFor 900) :
    ∃ u r', Performs (.setdt year month day weekday hour minute second) 900 s u ∧ u.ready ∧ u.wireAtRest ∧
      u.device = .reference r' ∧ u.strict = s.strict ∧ u.inputs = s.inputs.drop 900 ∧
      ∀ f : Field, Memory.read r'.reg (waddr f).toNat =
        fieldByte f (setdtOperand year month day hour minute second f) := by
  obtain ⟨⟨hclk, hce⟩, r', hd', hread⟩ :=
    setdtBody_reference year month day hour minute second (s.started 900) r hw hd
  have hset := performs_of_length (i := .setdt year month day weekday hour minute second) (after := .finish)
    (ps := setDateBody year month day ++ setTimeBody hour minute second) (by simp)
    (by simp [setDateBody, fieldWrite, guardedWrite_ne_nil]) rfl hr hq
  refine ⟨_, r', hset, ⟨rfl, ?_⟩, ⟨?_, ?_⟩, ?_, ?_, ?_, fun f => ?_⟩
  · simpa using hr.2
  · simpa using hclk
  · simpa using hce
  · simpa using hd'
  · simp
  · simp
  · rw [hread]
    cases f <;> rfl

/-- GETF of a register that holds a calendar byte returns, with `STRICT` false, the wrapped operand clamped. -/
theorem performs_getf_fieldByte {f : Field} {x : Word} {s : State} {r : RefDevice} (hr : s.ready) (hw : s.wireAtRest)
    (hd : s.device = .reference r) (hs : s.strict = false) (hq : s.quietFor 50)
    (hreg : Memory.read r.reg (waddr f).toNat = fieldByte f x) :
    ∃ w, Performs (.getf (codeOfField f)) 50 s w ∧ w.status = .ok ∧
      w.result = some (BitVec.ofNat 16 (clampRead f (x.toNat % fieldModulus f))) := by
  obtain ⟨q, -, hp, -, -, hacc, hstrict⟩ := performs_readFrame_reference (exec_getf f s) hr hw hd (raddr_odd f) hq
  rw [regIndex_raddr, hreg] at hacc
  rw [hs] at hstrict
  refine ⟨_, hp, ?_, ?_⟩
  · rw [runEpilogue_readValue_status, hstrict, readStatus_lenient]
  · rw [runEpilogue_readValue_result, hstrict, readResult_lenient, hacc, maskRead_fieldByte, packedToDecimal_fieldByte]

/-- Settles O56: SETDT leaves each field's calendar byte in its register, and GETF decodes it to the wrapped operand. -/
theorem setThenGetReadsBackWrapped : Obligations.SetThenGetReadsBackWrapped := by
  intro year month day weekday hour minute second s r hr hw hd hs hq
  obtain ⟨u, r', hset, hready, hrest, hd', hstrict, hin, hread⟩ := performs_setdt_reference year month day weekday hour
    minute second hr hw hd (State.quietFor_mono hq (by decide))
  have hquiet : u.quietFor 50 := State.quietFor_drop (m := 900) hq hin
  refine ⟨u, hset, fun f => ?_⟩
  obtain ⟨w, hget, hstatus, hresult⟩ :=
    performs_getf_fieldByte hready hrest hd' (hstrict.trans hs) hquiet (hread f)
  refine ⟨w, hget, hstatus, ?_⟩
  cases f <;> exact hresult

end Sys2Proof.Machine

/-!
The statements on ClockFacade (44_facade.md): GETF reads one frame, the set commands perform three or six field writes, START
and PAUSE read the seconds byte and write it back, and what these writes leave in the reference Device.
-/

namespace Sys2Proof.Machine

/-! ### After a completed command -/

/-- A command completed from a ready state leaves the engine ready for the next one. -/
theorem Completed.ready {n : Nat} {s u : State} (h : Completed n s u) (hr : s.ready) : u.ready := by
  obtain ⟨hidle, -, hfault, -⟩ := h
  exact ⟨hidle, hfault.trans hr.2⟩

/-- A completed command has consumed its own steps of a quiet port. -/
theorem Completed.quietFor {m n : Nat} {s u : State} (h : Completed m s u) (hq : s.quietFor (m + n)) :
    u.quietFor n := by
  obtain ⟨-, -, -, -, -, hinputs⟩ := h
  exact State.quietFor_drop hq hinputs

/-- A command that returns nothing completes once its primitives are done. -/
theorem performs_finish {i : Instr} {ps : List Prim} {s : State} {n : Nat} (hn : ps.length = n) (hne : ps ≠ [])
    (he : exec i s = .next (present i (acceptAs i ps .finish) s)) (hr : s.ready) (hq : s.quietFor n) :
    Performs i n s (complete (performAll ps (s.started n))) :=
  performs_of_length hn hne he hr hq

theorem completed_complete (n : Nat) (ps : List Prim) (s : State) :
    Completed n s (complete (performAll ps (s.started n))) := by simp [Completed]

/-! ### GETF (44_facade.md R176, R178) -/

/-- The read policy as the statements spell it (43_fieldcodec.md R155). -/
theorem readPolicy_cases (strict : Bool) (f : Field) (d : Nat) :
    if strict = true ∧ ¬(fieldLo f ≤ d ∧ d ≤ fieldHi f)
    then readStatus strict f d = .outOfRange ∧ some (readResult strict f d) = some (BitVec.ofNat 16 d)
    else readStatus strict f d = .ok ∧ some (readResult strict f d) = some (BitVec.ofNat 16 (clampRead f d)) := by
  simp only [readStatus, readResult, strict_and_not_inRange_iff]
  split_ifs <;> exact ⟨rfl, rfl⟩

/-- Settles O40: GETF lines up a read frame at `raddr(f)`, and its epilogue masks and decodes the byte and applies the read
policy. -/
theorem getfReadsDecodesAndClamps : Obligations.GetfReadsDecodesAndClamps := by
  intro f s hr hq
  obtain ⟨v, htrace, hclk, hce, hdio, htmp⟩ := readFrame_effect (raddr f) (s.started 50)
  refine ⟨_, v, performs_readFrame (exec_getf f s) hr hq, completed_of_command (after := .readValue f) nofun rfl _ 50 s,
    htrace, hclk, hce, hdio, ?_⟩
  rw [runEpilogue_readValue_status, runEpilogue_readValue_result, performAll_strict, started_strict, htmp,
    maskRead_eq_ite]
  exact readPolicy_cases s.strict f _

/-! ### Three field writes: SETYMD and SETHMS (44_facade.md R175, R180, R181) -/

/-- Three field writes in a row are three guarded writes on the wire, whatever the Device is. -/
theorem fieldWrites_effect (f g h : Field) (x y z : Word) (s : State) :
    let u := performAll (fieldWrite f x ++ fieldWrite g y ++ fieldWrite h z) s
    u.trace = s.trace ++ (guardWritten (waddr f) (fieldByte f x) ++ guardWritten (waddr g) (fieldByte g y) ++
      guardWritten (waddr h) (fieldByte h z)) ∧
    u.clkQ = false ∧ u.ceQ = false ∧ u.dioQ = some false ∧ u.tmp = { s.tmp with bitIndex := 7 } := by
  simp only [performAll_append]
  obtain ⟨t₁, -, -, -, m₁⟩ := guardedWrite_effect (waddr f) (fieldByte f x) s
  obtain ⟨t₂, -, -, -, m₂⟩ := guardedWrite_effect (waddr g) (fieldByte g y) (performAll (fieldWrite f x) s)
  obtain ⟨t₃, hclk, hce, hdio, m₃⟩ := guardedWrite_effect (waddr h) (fieldByte h z)
    (performAll (fieldWrite g y) (performAll (fieldWrite f x) s))
  refine ⟨t₃.trans ?_, hclk, hce, hdio, m₃.trans ?_⟩
  · rw [fieldWrite, t₂, fieldWrite, t₁]
    simp only [List.append_assoc]
  · rw [fieldWrite, m₂, fieldWrite, m₁]

/-- A command of three field writes, run from its acceptance to its completion. -/
theorem complete_fieldWrites (f g h : Field) (x y z : Word) (s : State) :
    let u := complete (performAll (fieldWrite f x ++ fieldWrite g y ++ fieldWrite h z) (s.started 450))
    Completed 450 s u ∧ u.status = .ok ∧ u.result = s.result ∧ u.clkQ = false ∧ u.ceQ = false ∧ u.dioQ = some false ∧
      u.trace = s.trace ++ (guardWritten (waddr f) (fieldByte f x) ++ guardWritten (waddr g) (fieldByte g y) ++
        guardWritten (waddr h) (fieldByte h z)) := by
  obtain ⟨htrace, hclk, hce, hdio, -⟩ := fieldWrites_effect f g h x y z (s.started 450)
  exact ⟨completed_complete 450 _ s, rfl, by simp, hclk, hce, hdio, htrace⟩

theorem fieldWrite_ne_nil (f : Field) (x : Word) : fieldWrite f x ≠ [] := guardedWrite_ne_nil _ _

theorem setDateBody_ne_nil (year month day : Word) : setDateBody year month day ≠ [] := by
  simp [setDateBody, fieldWrite_ne_nil]

theorem setTimeBody_ne_nil (hour minute second : Word) : setTimeBody hour minute second ≠ [] := by
  simp [setTimeBody, fieldWrite_ne_nil]

theorem performs_setymd (year month day : Word) {s : State} (hr : s.ready) (hq : s.quietFor 450) :
    Performs (.setymd year month day) 450 s (complete (performAll (setDateBody year month day) (s.started 450))) :=
  performs_finish (length_setDateBody year month day) (setDateBody_ne_nil year month day) rfl hr hq

theorem performs_sethms (hour minute second : Word) {s : State} (hr : s.ready) (hq : s.quietFor 450) :
    Performs (.sethms hour minute second) 450 s
      (complete (performAll (setTimeBody hour minute second) (s.started 450))) :=
  performs_finish (length_setTimeBody hour minute second) (setTimeBody_ne_nil hour minute second) rfl hr hq

/-- Settles O41: SETYMD performs the field writes of year, month and day, whose moduli are 100, 13 and 32. -/
theorem setymdWritesYearMonthDay : Obligations.SetymdWritesYearMonthDay :=
  fun year month day s hr hq =>
    ⟨_, performs_setymd year month day hr hq, complete_fieldWrites .year .month .day year month day s⟩

/-- Settles O42: SETHMS performs the field writes of hour, minute and second, whose moduli are 24, 60 and 60. -/
theorem sethmsWritesHourMinuteSecond : Obligations.SethmsWritesHourMinuteSecond :=
  fun hour minute second s hr hq =>
    ⟨_, performs_sethms hour minute second hr hq, complete_fieldWrites .hour .minute .second hour minute second s⟩

/-! ### SETDT (44_facade.md R182, R183) -/

/-- A state without the fields that decide no wire action: the slot, the temporaries, `status`, `done` and the inputs. -/
def State.wireView (s : State) : State :=
  { s with slot := .idle, tmp := {}, status := .ok, done := false, inputs := [] }

theorem complete_wireView (s : State) : (complete s).wireView = s.wireView := rfl

theorem started_wireView (s : State) (n : Nat) : (s.started n).wireView = s.wireView := rfl

theorem perform_wireView (p : Prim) (s : State) : (perform p s).wireView = (perform p s.wireView).wireView := by
  cases p <;> rfl

/-- Primitives act alike on states that look alike to the wire. -/
theorem performAll_wireView_congr (ps : List Prim) {s t : State} (h : s.wireView = t.wireView) :
    (performAll ps s).wireView = (performAll ps t).wireView := by
  induction ps generalizing s t with
  | nil => exact h
  | cons p ps ih =>
    refine ih ?_
    rw [perform_wireView, h, ← perform_wireView]

/-- The completion of a command sets the slot, `status` and `done`, so what it leaves depends on none of them. -/
theorem complete_eq_of_wireView {s t : State} (hview : s.wireView = t.wireView) (htmp : s.tmp = t.tmp)
    (hinputs : s.inputs = t.inputs) : complete s = complete t := by
  have hcomplete : ∀ q : State,
      complete q = { q.wireView with tmp := q.tmp, inputs := q.inputs, done := true } := fun _ => rfl
  rw [hcomplete s, hcomplete t, hview, htmp, hinputs]

/-! The bodies write no temporary but the loop index, and leave it at 7. -/

theorem setDateBody_tmp (year month day : Word) (s : State) :
    (performAll (setDateBody year month day) s).tmp = { s.tmp with bitIndex := 7 } := by
  obtain ⟨-, -, -, -, htmp⟩ := fieldWrites_effect .year .month .day year month day s
  exact htmp

theorem setTimeBody_tmp (hour minute second : Word) (s : State) :
    (performAll (setTimeBody hour minute second) s).tmp = { s.tmp with bitIndex := 7 } := by
  obtain ⟨-, -, -, -, htmp⟩ := fieldWrites_effect .hour .minute .second hour minute second s
  exact htmp

/-- SETDT performs the bodies of SETYMD and SETHMS, whatever its weekday operand is. -/
theorem performs_setdt (year month day weekday hour minute second : Word) {s : State} (hr : s.ready)
    (hq : s.quietFor 900) :
    Performs (.setdt year month day weekday hour minute second) 900 s
      (complete (performAll (setDateBody year month day ++ setTimeBody hour minute second) (s.started 900))) :=
  performs_finish (by simp) (by simp [setDateBody_ne_nil]) rfl hr hq

/-- Settles O43: the completion of SETYMD and the acceptance of SETHMS, which SETDT does without, change nothing that the
wire or the end of SETHMS reads. -/
theorem setdtIsSetymdThenSethms : Obligations.SetdtIsSetymdThenSethms := by
  intro year month day weekday hour minute second s hr hq
  have hdone := completed_complete 450 (setDateBody year month day) s
  refine ⟨_, _, performs_setdt year month day weekday hour minute second hr hq, completed_complete 900 _ s,
    performs_setymd year month day hr (State.quietFor_mono hq (by decide)), ?_⟩
  convert performs_sethms hour minute second (hdone.ready hr) (hdone.quietFor hq) using 1
  rw [performAll_append]
  refine complete_eq_of_wireView (performAll_wireView_congr _ ?_) ?_ ?_
  · rw [started_wireView, complete_wireView]
    exact performAll_wireView_congr _ ((started_wireView s 900).trans (started_wireView s 450).symm)
  · rw [setTimeBody_tmp, setTimeBody_tmp, setDateBody_tmp]
    rfl
  · simp

/-- Settles O44: the state that SETDT leads to does not name the weekday. -/
theorem weekdayOperandIsIgnored : Obligations.WeekdayOperandIsIgnored :=
  fun year month day weekday weekday' hour minute second _ hr hq =>
    ⟨_, performs_setdt year month day weekday hour minute second hr hq,
      performs_setdt year month day weekday' hour minute second hr hq⟩

/-- Settles O54: the field writes of each command are known on the reference Device, and as they go to distinct addresses
their order does not matter. -/
theorem referenceSetCommandsStore : Obligations.ReferenceSetCommandsStore := by
  intro year month day weekday hour minute second s r hr hw hd
  refine ⟨fun hq => ?_, fun hq => ?_, fun hq => ?_⟩
  · obtain ⟨r', hd', -, -, hread⟩ :=
      fieldWrites_reference .year .month .day year month day (s.started 450) r hw.1 hw.2 hd
    refine ⟨_, r', performs_setymd year month day hr hq, (complete_device _).trans hd', fun b => (hread b).trans ?_⟩
    simp only [waddr, regOfField, Reg.waddr]
    grind
  · obtain ⟨r', hd', -, -, hread⟩ :=
      fieldWrites_reference .hour .minute .second hour minute second (s.started 450) r hw.1 hw.2 hd
    refine ⟨_, r', performs_sethms hour minute second hr hq, (complete_device _).trans hd', fun b => (hread b).trans ?_⟩
    simp only [waddr, regOfField, Reg.waddr]
    grind
  · obtain ⟨-, r', hd', hread⟩ := setdtBody_reference year month day hour minute second (s.started 900) r hw hd
    refine ⟨_, r', performs_setdt year month day weekday hour minute second hr hq, (complete_device _).trans hd',
      fun b => (hread b).trans ?_⟩
    grind

/-! ### START and PAUSE (44_facade.md R184, R185) -/

/-- The state after the read frame of START or PAUSE, which hands the seconds byte on as `raw`. -/
def State.secondsRead (s : State) : State :=
  let q := performAll (readFrame Reg.second.raddr) (s.started 200)
  { q with tmp := { q.tmp with raw := q.tmp.acc } }

/-- The state in which START or PAUSE completes: the raw seconds byte written back with its halt bit as `op` has it. -/
def State.haltWritten (op : HaltOp) (s : State) : State :=
  complete (performAll (guardedWrite Reg.second.waddr (haltByte op s.secondsRead.tmp.raw)) s.secondsRead)

theorem performs_start {s : State} (hr : s.ready) (hq : s.quietFor 200) :
    Performs .start 200 s (s.haltWritten .clear) := performs_of_writeBack rfl hr hq rfl

theorem performs_pause {s : State} (hr : s.ready) (hq : s.quietFor 200) :
    Performs .pause 200 s (s.haltWritten .set) := performs_of_writeBack rfl hr hq rfl

theorem completed_haltWritten (op : HaltOp) (s : State) : Completed 200 s (s.haltWritten op) := by
  simp [Completed, State.haltWritten, State.secondsRead]

theorem haltWritten_strict (op : HaltOp) (s : State) : (s.haltWritten op).strict = s.strict := by
  simp [State.haltWritten, State.secondsRead]

theorem haltWritten_result (op : HaltOp) (s : State) : (s.haltWritten op).result = s.result := by
  simp [State.haltWritten, State.secondsRead]

theorem secondsRead_trace (s : State) :
    s.secondsRead.trace = s.trace ++ frameRead 0x81 s.secondsRead.tmp.raw := by
  obtain ⟨v, htrace, -, -, -, htmp⟩ := readFrame_effect Reg.second.raddr (s.started 200)
  have hraw : s.secondsRead.tmp.raw = v := congrArg Temps.acc htmp
  rw [hraw]
  exact htrace

/-- On the wire START and PAUSE are a read frame at 0x81 and a guarded write at 0x80, whatever the Device is. -/
theorem haltWritten_effect (op : HaltOp) (s : State) :
    let u := s.haltWritten op
    Completed 200 s u ∧ u.status = .ok ∧ u.result = s.result ∧ u.clkQ = false ∧ u.ceQ = false ∧
      u.dioQ = some false ∧ u.trace = s.trace ++
        (frameRead 0x81 s.secondsRead.tmp.raw ++ guardWritten 0x80 (haltByte op s.secondsRead.tmp.raw)) := by
  obtain ⟨htrace, hclk, hce, hdio, -⟩ :=
    guardedWrite_effect Reg.second.waddr (haltByte op s.secondsRead.tmp.raw) s.secondsRead
  refine ⟨completed_haltWritten op s, rfl, haltWritten_result op s, hclk, hce, hdio, htrace.trans ?_⟩
  rw [secondsRead_trace, List.append_assoc]
  rfl

/-- Settles O45: START writes the seconds byte back with its halt bit clear. -/
theorem startClearsTheHaltBit : Obligations.StartClearsTheHaltBit :=
  fun s hr hq => ⟨_, _, performs_start hr hq, haltWritten_effect .clear s⟩

/-- Settles O46: PAUSE writes the seconds byte back with its halt bit set. -/
theorem pauseSetsTheHaltBit : Obligations.PauseSetsTheHaltBit :=
  fun s hr hq => ⟨_, _, performs_pause hr hq, haltWritten_effect .set s⟩

/-! ### START and PAUSE on the reference Device (44_facade.md R179, 20_memory.md R70) -/

theorem haltWritten_wireAtRest (op : HaltOp) (s : State) : (s.haltWritten op).wireAtRest := by
  obtain ⟨-, -, -, hclk, hce, -⟩ := haltWritten_effect op s
  exact ⟨hclk, hce⟩

/-- The read frame of START and PAUSE returns the seconds register and changes none (20_memory.md R69). -/
theorem secondsRead_reference {s : State} {r : RefDevice} (hw : s.wireAtRest) (hd : s.device = .reference r) :
    s.secondsRead.wireAtRest ∧ s.secondsRead.tmp.raw = Memory.read r.reg 0x80 ∧
      ∃ r', s.secondsRead.device = .reference r' ∧ r'.reg = r.reg := by
  obtain ⟨-, htmp, hdev⟩ := readFrame_reference Reg.second.raddr (s.started 200) r hw.1 hw.2 hd rfl
  obtain ⟨-, -, hclk, hce, -⟩ := readFrame_effect Reg.second.raddr (s.started 200)
  exact ⟨⟨hclk, hce⟩, congrArg Temps.acc htmp, hdev⟩

/-- On the reference Device START and PAUSE write the halt bit of the seconds register and leave protection off. -/
theorem haltWritten_reference (op : HaltOp) {s : State} {r : RefDevice} (hw : s.wireAtRest)
    (hd : s.device = .reference r) :
    ∃ r', (s.haltWritten op).device = .reference r' ∧ ∀ b : Nat, Memory.read r'.reg b =
      if b = 0x8E then 0x00 else if b = 0x80 then haltByte op (Memory.read r.reg 0x80) else Memory.read r.reg b := by
  obtain ⟨⟨hclk, hce⟩, hraw, q, hq, hreg⟩ := secondsRead_reference hw hd
  obtain ⟨r', hd', hread⟩ :=
    guardedWrite_reference Reg.second.waddr (haltByte op s.secondsRead.tmp.raw) s.secondsRead q hclk hce hq rfl
  rw [hraw, hreg] at hread
  exact ⟨r', (complete_device _).trans hd', hread⟩

theorem haltByte_set_set (v : Byte) : haltByte .set (haltByte .set v) = haltByte .set v := by
  rw [haltByte, haltByte, BitVec.or_assoc, BitVec.or_self]

theorem haltByte_clear_set (v : Byte) : haltByte .clear (haltByte .set v) = haltByte .clear v := by
  revert v
  decide

/-- GETF second decodes the register with its halt bit clear, as START would write it back (44_facade.md R179). -/
theorem performs_getf_second {s : State} {r : RefDevice} (hr : s.ready) (hw : s.wireAtRest)
    (hd : s.device = .reference r) (hq : s.quietFor 50) :
    ∃ u, Performs (.getf (codeOfField .second)) 50 s u ∧
      u.result = some (readResult s.strict .second (packedToDecimal (haltByte .clear (Memory.read r.reg 0x80)))) ∧
      u.status = readStatus s.strict .second (packedToDecimal (haltByte .clear (Memory.read r.reg 0x80))) := by
  obtain ⟨-, hgetf⟩ := referenceReadsReturnTheRegister s r hr hw hd hq
  obtain ⟨u, -, hu, -, -, hresult, hstatus⟩ := hgetf .second
  exact ⟨u, hu, hresult, hstatus⟩

/-- Settles O57: the seconds register goes through the halt bytes of the three commands, 0x8E holds 0x00 from the first on,
and GETF second reads the register masked. -/
theorem pauseAndStartOnReference : Obligations.PauseAndStartOnReference := by
  intro s r hr hw hd hq old
  have hr₁ := (completed_haltWritten .set s).ready hr
  have hq₁ := (completed_haltWritten .set s).quietFor (n := 400) hq
  have hw₁ := haltWritten_wireAtRest .set s
  obtain ⟨r₁, hd₁, hread₁⟩ := haltWritten_reference .set hw hd
  have hr₂ := (completed_haltWritten .set (s.haltWritten .set)).ready hr₁
  have hq₂ := (completed_haltWritten .set (s.haltWritten .set)).quietFor (n := 200) hq₁
  obtain ⟨r₂, hd₂, hread₂⟩ := haltWritten_reference .set hw₁ hd₁
  obtain ⟨r₃, hd₃, hread₃⟩ := haltWritten_reference .clear (haltWritten_wireAtRest .set _) hd₂
  have hsecond : Memory.read r₁.reg 0x80 = haltByte .set old := hread₁ 0x80
  have hagain : ∀ b : Nat, Memory.read r₂.reg b = Memory.read r₁.reg b := by
    intro b
    rw [hread₂, hsecond, haltByte_set_set, hread₁]
    split_ifs <;> rfl
  refine ⟨_, _, _, r₁, r₂, r₃, performs_pause hr (State.quietFor_mono hq (by decide)),
    performs_pause hr₁ (State.quietFor_mono hq₁ (by decide)), performs_start hr₂ hq₂, hd₁, hd₂, hd₃, hread₁, hagain,
    fun b => ?_, ?_⟩
  · rw [hread₃, hagain, hagain, hsecond, haltByte_clear_set, hread₁]
    split_ifs <;> rfl
  · obtain ⟨x, hx, hresult, hstatus⟩ := performs_getf_second hr hw hd (State.quietFor_mono hq (by decide))
    obtain ⟨y, hy, hresult₁, hstatus₁⟩ := performs_getf_second hr₁ hw₁ hd₁ (State.quietFor_mono hq₁ (by decide))
    rw [hsecond, haltByte_clear_set, haltWritten_strict] at hresult₁ hstatus₁
    exact ⟨x, y, hx, hy, hresult.trans hresult₁.symm, hstatus.trans hstatus₁.symm⟩

end Sys2Proof.Machine

/-!
The statements on the faults (60_exceptions.md): what raises one, what a step does to a command in flight while it raises
`OVERLAP`, and what a faulted engine does.
-/

namespace Sys2Proof.Machine

/-! ### A fault in the middle of a command (60_exceptions.md R212, R213) -/

/-- `s` with a fault standing, and with other inputs and another trace: the fields that an advance of a command in flight
does not read. -/
def State.faultedWith (cause : FaultCause) (inputs : List PortInput) (trace : List Event) (s : State) : State :=
  { s with fault := true, faultCause := faultCode cause, inputs := inputs, trace := trace }

/-- A primitive appends the same event, whatever stands in those fields. -/
theorem perform_faultedWith (p : Prim) (s : State) :
    ∃ e, (perform p s).trace = s.trace ++ [e] ∧ ∀ cause inputs trace,
      perform p (s.faultedWith cause inputs trace) = (perform p s).faultedWith cause inputs (trace ++ [e]) := by
  cases p <;> exact ⟨_, rfl, fun _ _ _ => rfl⟩

theorem runEpilogue_faultedWith (cmd : Instr) (after : Epilogue) (cause : FaultCause) (inputs : List PortInput)
    (trace : List Event) (s : State) : runEpilogue cmd after (s.faultedWith cause inputs trace) =
      (runEpilogue cmd after s).faultedWith cause inputs trace := by
  cases after <;> rfl

theorem advance_spent {s : State} {cmd : Instr} {after : Epilogue} (h : s.slot = .busy cmd ⟨[], after⟩) :
    advance s = runEpilogue cmd after s := by
  simp [advance, h]

/-- The advance of a command in flight does the same with and without a fault standing. -/
theorem advance_faultedWith {s : State} {cmd : Instr} {k : Cont} (hslot : s.slot = .busy cmd k) :
    ∃ es, (advance s).trace = s.trace ++ es ∧ ∀ cause inputs trace,
      advance (s.faultedWith cause inputs trace) = (advance s).faultedWith cause inputs (trace ++ es) := by
  obtain ⟨_ | ⟨p, _ | ⟨q, ps⟩⟩, after⟩ := k
  case nil =>
    refine ⟨[], by simp [advance_spent hslot], fun cause inputs trace => ?_⟩
    rw [advance_spent (s := s.faultedWith cause inputs trace) hslot, advance_spent hslot, runEpilogue_faultedWith,
      List.append_nil]
  case cons.nil =>
    obtain ⟨e, htrace, hperform⟩ := perform_faultedWith p s
    refine ⟨[e], by simp [advance_last hslot, htrace], fun cause inputs trace => ?_⟩
    rw [advance_last (s := s.faultedWith cause inputs trace) hslot, advance_last hslot, hperform,
      runEpilogue_faultedWith]
  case cons.cons =>
    obtain ⟨e, htrace, hperform⟩ := perform_faultedWith p s
    refine ⟨[e], by simp [advance_more hslot, htrace], fun cause inputs trace => ?_⟩
    rw [advance_more (s := s.faultedWith cause inputs trace) hslot, advance_more hslot, hperform]
    rfl

/-- Settles O15: the presented step is the advance of the quiet step with the fault recorded before it. -/
theorem overlapFaultsAndTheCommandGoesOn : Obligations.OverlapFaultsAndTheCommandGoesOn := by
  intro i s cmd k hslot hfault
  obtain ⟨es, htrace, hadvance⟩ := advance_faultedWith (s := { s with inputs := [], done := false }) hslot
  refine ⟨_, es, step_of_no_input rfl, htrace, ?_⟩
  obtain ⟨accept, hexec, -⟩ := exec_cases i
  rw [hexec]
  rcases present_cases i accept s with ⟨hidle, -⟩ | ⟨-, -, hpresent⟩ | ⟨hset, -⟩
  · simp [hslot] at hidle
  · have hraise : raise .overlap (encode i).overlapInfo { s with done := false } =
        ({ s with inputs := [], done := false } : State).faultedWith .overlap s.inputs
          (s.trace ++ [.fault .overlap (encode i).overlapInfo]) := rfl
    rw [hpresent, hraise, hadvance]
    rfl
  · simp [hfault] at hset

/-! ### Where a fault arises (60_exceptions.md R207, R208) -/

/-- No advance raises a fault: only the end of a binding writes the flag, and it clears it. -/
theorem advance_fault_eq_false {s : State} (h : s.fault = false) : (advance s).fault = false := by
  by_cases hbinding : ∃ strict, s.slot = .binding strict
  · obtain ⟨strict, hslot⟩ := hbinding
    rw [advance_binding hslot, finishBinding_fault]
  · obtain ⟨hkept, -, -⟩ := advance_keeps_of_not_binding (not_exists.1 hbinding)
    exact hkept.trans h

/-- Settles O18: of the cases of `step_cases`, an advance, the start of a binding, a completion and an acceptance leave
`fault` at 0; the two that raise it present a word, and the one of them that finds the engine idle only records it. -/
theorem faultsAriseAtAcceptanceOnly : Obligations.FaultsAriseAtAcceptanceOnly := by
  intro s t hclear h hset
  obtain ⟨rest, -, ht | ⟨strict, ht⟩ | ⟨r, hinputs, -, hpresented⟩⟩ := step_cases h
  · rw [ht, advance_fault_eq_false (s := { s with inputs := rest, done := false }) hclear] at hset
    cases hset
  · rw [ht, startBinding_fault, hclear] at hset
    cases hset
  · refine ⟨r, rest, hinputs, fun hidle => ?_⟩
    obtain ⟨hbusy, -⟩ | ⟨-, ⟨cause, info, ht⟩ | ⟨v, status, ht, -⟩ | ⟨ps, after, ht, -⟩⟩ := hpresented
    · exact absurd hidle hbusy
    · subst ht
      exact ⟨cause, info, rfl, rfl, hidle, rfl, rfl, rfl, rfl, rfl, rfl, rfl⟩
    · rw [ht, completeWith_fault, hclear] at hset
      cases hset
    · rw [ht, acceptAs_fault, hclear] at hset
      cases hset

/-! ### The faults of a ready engine (60_exceptions.md R209, R211) -/

/-- The opcode 0x10 + `low` as the info of its fault. -/
theorem reservedOpcode_eq_ofNat (low : BitVec 4) :
    (0x10 : Word) ||| low.setWidth 16 = BitVec.ofNat 16 (0x10 + low.toNat) := by
  revert low
  decide

/-- Settles O12: the acceptance of a reserved opcode is the fault with that opcode. -/
theorem reservedOpcodesFault : Obligations.ReservedOpcodesFault := by
  intro s hr
  constructor
  · rw [exec, execReserved00, present_ready hr]
    rfl
  · intro low
    rw [exec, execReserved10to1F, present_ready hr, reservedOpcode_eq_ofNat]
    rfl

/-- Settles O14: above 99 the acceptance of ENC is the fault with its operand. -/
theorem encOutsideItsDomainFaults : Obligations.EncOutsideItsDomainFaults := by
  intro s n hr hn
  rw [exec, execEnc, present_ready hr, if_pos hn]
  rfl

/-! ### A faulted engine (60_exceptions.md R217) -/

/-- Settles O16: a faulted engine takes the step of a quiet port, and an idle one has nothing to advance. -/
theorem faultedEngineIgnoresCommands : Obligations.FaultedEngineIgnoresCommands := by
  intro i s hidle hset
  obtain ⟨accept, hexec, -⟩ := exec_cases i
  rw [hexec]
  rcases present_cases i accept s with ⟨-, hclear, -⟩ | ⟨-, hclear, -⟩ | ⟨-, hpresent⟩
  · simp [hset] at hclear
  · simp [hset] at hclear
  · rw [hpresent, quietStep, advance_idle (s := { s with done := false }) hidle]

/-- Settles O21: each port input has its next state, and every instruction is a presentation. -/
theorem everyStepAnswersANextState : Obligations.EveryStepAnswersANextState := by
  intro s
  rcases hinputs : s.inputs with _ | ⟨_ | r | strict, rest⟩
  case nil => exact ⟨_, step_of_no_input hinputs⟩
  case cons.quiet => exact ⟨_, step_of_quiet_input hinputs⟩
  case cons.bind => exact ⟨startBinding strict { s with inputs := rest }, by rw [step, hinputs]⟩
  case cons.present =>
    obtain ⟨accept, hexec, -⟩ := exec_cases (decode r)
    exact ⟨_, (step_of_present hinputs).trans (hexec _)⟩

end Sys2Proof.Machine

/-!
The statements on reset and hazards (70_reset_and_hazards.md): binding resets the engine from any state, and an accepted
instruction is busy for exactly its count of wire actions.
-/

namespace Sys2Proof.Machine

/-! ### Binding (70_reset_and_hazards.md R226, R228) -/

theorem step_of_bind_input {s : State} {strict : Bool} {rest : List PortInput} (h : s.inputs = .bind strict :: rest) :
    step s = .next (startBinding strict { s with inputs := rest }) := by rw [step, h]

/-- A CLK edge while CE is 0 changes no register (20_memory.md R71). -/
theorem Device.registers_onClk_of_ce_low (d : Device) (before level : Bool) (draws : Nat) :
    (d.onClk before level false draws).1.registers = d.registers := by cases d <;> rfl

/-- CE held at 0 is no edge (20_memory.md R67, R70). -/
theorem Device.onCe_low_low (d : Device) : d.onCe false false = d := by cases d <;> rfl

/-- A binding whose second step is quiet is its two actions. -/
theorem runs_binding {s : State} {strict : Bool} {rest : List PortInput}
    (h : s.inputs = .bind strict :: .quiet :: rest) :
    Runs 2 s (finishBinding strict { startBinding strict s with inputs := rest }) :=
  Runs.succ (step_of_bind_input h) (Runs.succ (step_of_quiet_input rfl) (Runs.zero _))

/-- With the wire at rest the two actions of a binding are no edges that a Device acts on. -/
theorem registers_binding {s : State} (h : s.wireAtRest) (strict : Bool) (inputs : List PortInput) :
    (finishBinding strict { startBinding strict s with inputs := inputs }).device.registers = s.device.registers := by
  obtain ⟨-, hce⟩ := h
  rw [finishBinding_device, startBinding_ceQ, hce, Device.onCe_low_low, startBinding_device, hce,
    Device.registers_onClk_of_ce_low]

/-- Settles O11: the two actions lower CLK and CE, and the end of the binding writes every field of the engine. -/
theorem bindingResetsTheEngine : Obligations.BindingResetsTheEngine := by
  intro s strict rest hinputs
  have htrace : s.trace ++ [.set .clk false] ++ [.set .ce false] = s.trace ++ [.set .clk false, .set .ce false] :=
    List.append_assoc ..
  exact ⟨_, runs_binding hinputs, htrace, rfl, rfl, rfl, rfl, rfl, rfl, rfl, rfl, rfl, rfl, rfl, rfl,
    fun hrest => registers_binding hrest strict rest⟩

/-! ### The actions an engine owes (70_reset_and_hazards.md R245) -/

/-- The engine is to perform exactly `n` more wire actions: none and it is idle, or those of the command in flight, START's
and PAUSE's guarded write included before it is lined up. -/
def State.Owes (s : State) (n : Nat) : Prop :=
  (s.slot = .idle ∧ n = 0) ∨ ∃ cmd k, s.slot = .busy cmd k ∧ k.prims ≠ [] ∧ k.steps = n

theorem Cont.steps_cons (p : Prim) (ps : List Prim) (after : Epilogue) :
    (Cont.mk (p :: ps) after).steps = (Cont.mk ps after).steps + 1 := by cases after <;> rfl

theorem Cont.steps_pos {k : Cont} (h : k.prims ≠ []) : 0 < k.steps := by
  obtain ⟨_ | ⟨p, ps⟩, after⟩ := k
  case nil => exact absurd rfl h
  case cons => exact Cont.steps_cons p ps after ▸ Nat.succ_pos _

theorem State.owes_zero_iff (s : State) : s.Owes 0 ↔ s.slot = .idle := by
  refine ⟨?_, fun h => .inl ⟨h, rfl⟩⟩
  rintro (⟨hidle, -⟩ | ⟨cmd, k, -, hne, hsteps⟩)
  · exact hidle
  · exact absurd hsteps (Cont.steps_pos hne).ne'

theorem State.Owes.busy {s : State} {n : Nat} (h : s.Owes n) (hn : 0 < n) : s.busy = true := by
  rw [busy_iff]
  intro hidle
  obtain ⟨-, hzero⟩ | ⟨cmd, k, hbusy, -⟩ := h
  · exact absurd hzero hn.ne'
  · simp [hidle] at hbusy

/-- After the last lined-up primitive START and PAUSE still owe their guarded write, and nothing else owes anything. -/
theorem owes_runEpilogue (cmd : Instr) (after : Epilogue) (s : State) :
    (runEpilogue cmd after s).Owes (Cont.mk [] after).steps := by
  cases after with
  | writeBack op => exact .inr ⟨cmd, _, rfl, guardedWrite_ne_nil _ _, length_guardedWrite _ _⟩
  | finish | returnByte | readValue _ | endWriteFrame | endReadFrame => exact .inl ⟨rfl, rfl⟩

/-- The engine's advance performs one of the actions it owes. -/
theorem owes_advance {s : State} {n : Nat} (h : s.Owes (n + 1)) : (advance s).Owes n := by
  obtain ⟨-, hzero⟩ | ⟨cmd, ⟨ps, after⟩, hslot, hne, hsteps⟩ := h
  · cases hzero
  · match ps with
    | [] => exact absurd rfl hne
    | [p] =>
      rw [Cont.steps_cons, Nat.succ_inj] at hsteps
      rw [advance_last hslot, ← hsteps]
      exact owes_runEpilogue cmd after _
    | p :: q :: ps =>
      rw [Cont.steps_cons, Nat.succ_inj] at hsteps
      rw [advance_more hslot]
      exact .inr ⟨cmd, _, rfl, List.cons_ne_nil q ps, hsteps⟩

/-- An advance consumes no port input: the step around it does (00_scope.md R19). -/
theorem advance_inputs (s : State) : (advance s).inputs = s.inputs := by
  rcases advance_cases s with ⟨-, ha⟩ | ⟨strict, -, ha⟩ | ⟨cmd, after, -, ha⟩ | ⟨cmd, p, after, -, ha⟩ |
    ⟨cmd, p, q, ps, after, -, ha⟩ <;> simp [ha]

/-- With a quiet port the engine performs one owed action a step, and raises no fault. -/
theorem runs_owing {m n : Nat} {s : State} (h : s.Owes (m + n)) (hf : s.fault = false) (hq : s.quietFor m) :
    ∃ u, Runs m s u ∧ u.Owes n ∧ u.fault = false := by
  induction m generalizing s with
  | zero => exact ⟨s, Runs.zero s, Nat.zero_add n ▸ h, hf⟩
  | succ m ih =>
    have hstep := step_quiet (State.quietFor_mono hq (Nat.le_add_left 1 m))
    rw [Nat.add_right_comm] at h
    obtain ⟨u, hrun, howes, hfault⟩ :=
      ih (s := quietStep { s with inputs := s.inputs.drop 1 })
        (owes_advance (s := { s with inputs := s.inputs.drop 1, done := false }) h)
        (advance_fault_eq_false (s := { s with inputs := s.inputs.drop 1, done := false }) hf)
        (State.quietFor_drop (m := 1) (Nat.add_comm m 1 ▸ hq) (advance_inputs _))
    exact ⟨u, Runs.succ hstep hrun, howes, hfault⟩

/-! ### What an acceptance owes -/

/-- At `s` the instruction is accepted without a fault, and the engine then owes `n` actions. -/
def AcceptsOwing (i : Instr) (n : Nat) (s : State) : Prop :=
  ∃ t, exec i s = .next t ∧ t.Owes n ∧ t.fault = false ∧ t.inputs = s.inputs

/-- An instruction whose acceptance lines up primitives owes them and what its epilogue lines up. -/
theorem acceptsOwing_of_acceptAs {i : Instr} {ps : List Prim} {after : Epilogue} {s : State} {n : Nat} (hr : s.ready)
    (he : exec i s = .next (present i (acceptAs i ps after) s)) (hne : ps ≠ [])
    (hn : (Cont.mk ps after).steps = n) : AcceptsOwing i n s := by
  rw [present_ready hr] at he
  exact ⟨_, he, .inr ⟨i, _, rfl, hne, hn⟩, hr.2, rfl⟩

/-- An instruction that completes in the step of its acceptance owes nothing. -/
theorem acceptsOwing_of_completeWith {i : Instr} {accept : State → State} {v : Word} {status : Status} {s : State}
    (hr : s.ready) (he : exec i s = .next (present i accept s))
    (hp : present i accept s = completeWith v status { s with done := false }) : AcceptsOwing i 0 s :=
  ⟨_, he.trans (congrArg _ hp), .inl ⟨rfl, rfl⟩, hr.2, rfl⟩

theorem length_setdtBody (year month day hour minute second : Word) :
    (setDateBody year month day ++ setTimeBody hour minute second).length = 900 := by simp

theorem codeOfField_of_fieldOfCode {code : BitVec 3} {f : Field} (h : fieldOfCode code = some f) :
    codeOfField f = code := by
  revert code
  cases f <;> decide

/-- A field code that is not reserved is the code of its field (30_encoding.md R83). -/
theorem exists_codeOfField {code : BitVec 3} (h : code.toNat ≤ 5) : ∃ f, codeOfField f = code := by
  have hsome : fieldOfCode code ≠ none := fun hnone => by
    have := (fieldOfCode_eq_none_iff code).1 hnone
    omega
  obtain ⟨f, hf⟩ := Option.ne_none_iff_exists'.1 hsome
  exact ⟨f, codeOfField_of_fieldOfCode hf⟩

/-- An instruction that no check refuses owes its count of actions (70_reset_and_hazards.md R245). -/
theorem acceptsOwing_actionCount {i : Instr} (hc : passesChecks i) {s : State} (hr : s.ready) :
    AcceptsOwing i (actionCount i) s := by
  cases i with
  | wbyte v => exact acceptsOwing_of_acceptAs hr rfl (writeByte_ne_nil v) (length_writeByte v)
  | rbyte => exact acceptsOwing_of_acceptAs hr rfl readByte_ne_nil length_readByte
  | gwrite a v => exact acceptsOwing_of_acceptAs hr rfl (guardedWrite_ne_nil a v) (length_guardedWrite a v)
  | enc n => exact acceptsOwing_of_completeWith hr rfl ((present_ready hr).trans (if_neg (Nat.not_lt.2 hc)))
  | dec byte => exact acceptsOwing_of_completeWith hr rfl (present_ready hr)
  | clamp code d =>
    obtain ⟨f, rfl⟩ := exists_codeOfField hc
    exact acceptsOwing_of_completeWith hr rfl (present_withField_codeOfField hr)
  | wrap code x =>
    obtain ⟨f, rfl⟩ := exists_codeOfField hc
    exact acceptsOwing_of_completeWith hr rfl (present_withField_codeOfField hr)
  | getf code =>
    obtain ⟨f, rfl⟩ := exists_codeOfField hc
    exact acceptsOwing_of_acceptAs hr (exec_getf f s) (List.cons_ne_nil _ _) (length_readFrame _)
  | setymd y m d => exact acceptsOwing_of_acceptAs hr rfl (setDateBody_ne_nil y m d) (length_setDateBody y m d)
  | sethms h m s => exact acceptsOwing_of_acceptAs hr rfl (setTimeBody_ne_nil h m s) (length_setTimeBody h m s)
  | setdt y m d wd h mi sec =>
    exact acceptsOwing_of_acceptAs hr rfl (List.append_ne_nil_of_left_ne_nil (setDateBody_ne_nil y m d) _)
      (length_setdtBody y m d h mi sec)
  | start | pause =>
    exact acceptsOwing_of_acceptAs hr rfl (List.cons_ne_nil _ _) (congrArg (· + 150) (length_readFrame _))
  | reserved00 | reserved10to1F _ => exact hc.elim
  | wreg _ _ | frameWrSecond _ | frameWrMinute _ | frameWrHour _ | frameWrDay _ | frameWrMonth _ | frameWrWeekday _
  | frameWrYear _ | frameWrWp _ | frameWrControl _ | frameWrRamBase _ | frameWriteAny _ _ =>
    exact acceptsOwing_of_acceptAs hr rfl (List.cons_ne_nil _ _) (length_writeFrame _ _)
  | rreg _ | frameRdSecond | frameRdMinute | frameRdHour | frameRdDay | frameRdMonth | frameRdWeekday
  | frameRdYear | frameRdWp | frameRdControl | frameRdRamBase | frameReadAny _ =>
    exact acceptsOwing_of_acceptAs hr rfl (List.cons_ne_nil _ _) (length_readFrame _)

/-- Settles O23: an acceptance owes the count, every step performs one owed action, and the engine is idle exactly when it
owes none. -/
theorem actionCountsAreExact : Obligations.ActionCountsAreExact := by
  intro i s hr hc hq
  obtain ⟨t, hexec, howes, hfault, hinputs⟩ := acceptsOwing_actionCount hc hr
  have hquiet : t.quietFor (actionCount i) := by
    rw [State.quietFor, hinputs]
    exact hq
  have hrun : ∀ m n, m + n = actionCount i → ∃ u, Performs i m s u ∧ u.Owes n ∧ u.fault = false := by
    intro m n hmn
    obtain ⟨u, hu, hrest⟩ := runs_owing (hmn ▸ howes) hfault (State.quietFor_mono hquiet (by omega))
    exact ⟨u, ⟨t, hexec, hu⟩, hrest⟩
  constructor
  · obtain ⟨u, hu, hnone, hclear⟩ := hrun (actionCount i) 0 rfl
    exact ⟨u, hu, (State.owes_zero_iff u).1 hnone, hclear⟩
  · intro m hm
    obtain ⟨w, hw, howing, -⟩ := hrun m (actionCount i - m) (by omega)
    exact ⟨w, hw, howing.busy (by omega)⟩

end Sys2Proof.Machine
